-- ==== Sys2Proof/Word.lean ====
section
/-! DEFINITION. The word types of the core: a byte (every register and memory cell, 10_state.md R10, R21)
and a 16-bit absolute address (20_memory.md R36). All quantities are unsigned (00_scope.md, section 5). -/

namespace Sys2Proof

/-- An 8-bit unsigned value: the `byte` of 00_scope.md, section 5. -/
abbrev Byte := BitVec 8

/-- The 16-bit operand `addr16` of a 3-byte instruction (30_encoding.md R63). -/
abbrev Addr16 := BitVec 16

end Sys2Proof
end

