-- ==== Sys2Proof/Syntax.lean ====
section
/-! DEFINITION. The instruction set as syntax: the 29 mnemonics of 30_encoding.md R65 in the order of the
source's table, the three formats of R60, and `Instr`, one constructor per row of spec/opcode_table.json.
The five UNDEF rows of that table are one instruction, the undefined opcode of R67 and R83. -/

namespace Sys2Proof

/-- The 29 mnemonics of 30_encoding.md R65. -/
inductive Mnemonic where
  | nop | ldaImm | ldbImm | ldcImm | lddImm | staAbs | ldaAbs | ldaIdx
  | staIdx | add | sub | and | or | inc | dec | cmp
  | jmp | jz | jnz | call | ret | movBA | movAB | movCA
  | movAC | movDA | movAD | inp | halt
deriving DecidableEq, Repr

/-- The mnemonics in the order of R65's table. -/
def Mnemonic.all : List Mnemonic :=
  [.nop, .ldaImm, .ldbImm, .ldcImm, .lddImm, .staAbs, .ldaAbs, .ldaIdx,
   .staIdx, .add, .sub, .and, .or, .inc, .dec, .cmp,
   .jmp, .jz, .jnz, .call, .ret, .movBA, .movAB, .movCA,
   .movAC, .movDA, .movAD, .inp, .halt]

/-- `ISA_SIZE` of 00_scope.md R5: the number of defined instructions (out of the core; D22). -/
def isaSize : Nat := Mnemonic.all.length

/-- The three formats of 30_encoding.md R60. -/
inductive Format where
  /-- one byte: the opcode -/
  | f1
  /-- two bytes: the opcode and imm8 -/
  | f2
  /-- three bytes: the opcode and addr16, low byte first -/
  | f3
deriving DecidableEq, Repr

/-- An instruction with its operand. A mnemonic implies its registers (R60), so the only operands are
`imm8` (R62) and `addr16` (R63). -/
inductive Instr where
  /-- NOP, R82. -/
  | nop
  /-- LDA_IMM, R90. -/
  | ldaImm (imm : Byte)
  /-- LDB_IMM, R91. -/
  | ldbImm (imm : Byte)
  /-- LDC_IMM, R92. -/
  | ldcImm (imm : Byte)
  /-- LDD_IMM, R93. -/
  | lddImm (imm : Byte)
  /-- STA_ABS, R94. -/
  | staAbs (addr : Addr16)
  /-- LDA_ABS, R95. -/
  | ldaAbs (addr : Addr16)
  /-- LDA_IDX, R96. -/
  | ldaIdx
  /-- STA_IDX, R97. -/
  | staIdx
  /-- ADD, R100. -/
  | add
  /-- SUB, R101. -/
  | sub
  /-- AND, R102. -/
  | and
  /-- OR, R103. -/
  | or
  /-- INC, R104. -/
  | inc
  /-- DEC, R105. -/
  | dec
  /-- CMP, R106. -/
  | cmp
  /-- JMP, R110. -/
  | jmp (addr : Addr16)
  /-- JZ, R111. -/
  | jz (addr : Addr16)
  /-- JNZ, R112. -/
  | jnz (addr : Addr16)
  /-- CALL, R113. -/
  | call (addr : Addr16)
  /-- RET, R114. -/
  | ret
  /-- MOV_BA, R120. -/
  | movBA
  /-- MOV_AB, R121. -/
  | movAB
  /-- MOV_CA, R122. -/
  | movCA
  /-- MOV_AC, R123. -/
  | movAC
  /-- MOV_DA, R124. -/
  | movDA
  /-- MOV_AD, R125. -/
  | movAD
  /-- INP, R130. -/
  | inp
  /-- HALT, R131. -/
  | halt
  /-- UNDEF, R83: a first byte to which OPCODE_MAP gives no mnemonic. -/
  | undef (op : Byte)
deriving DecidableEq, Repr

/-- The mnemonic of an instruction; none for an undefined opcode. -/
def Instr.mnemonic : Instr → Option Mnemonic
  | .nop => some .nop
  | .ldaImm _ => some .ldaImm
  | .ldbImm _ => some .ldbImm
  | .ldcImm _ => some .ldcImm
  | .lddImm _ => some .lddImm
  | .staAbs _ => some .staAbs
  | .ldaAbs _ => some .ldaAbs
  | .ldaIdx => some .ldaIdx
  | .staIdx => some .staIdx
  | .add => some .add
  | .sub => some .sub
  | .and => some .and
  | .or => some .or
  | .inc => some .inc
  | .dec => some .dec
  | .cmp => some .cmp
  | .jmp _ => some .jmp
  | .jz _ => some .jz
  | .jnz _ => some .jnz
  | .call _ => some .call
  | .ret => some .ret
  | .movBA => some .movBA
  | .movAB => some .movAB
  | .movCA => some .movCA
  | .movAC => some .movAC
  | .movDA => some .movDA
  | .movAD => some .movAD
  | .inp => some .inp
  | .halt => some .halt
  | .undef _ => none

end Sys2Proof
end

