-- ==== Sys2Proof/Config.lean ====
section
/-! DEFINITION. The implementation parameters of 00_scope.md R5 and their constraints, R6. The values of the
spec's reference configuration REF stand in Machine/Reference.lean. There is no free value on this
hardware: 93_implementation_defined.md treats no behaviour as 'any value'. -/

namespace Sys2Proof

/-- `OPCODE_MAP` of 00_scope.md R5: the opcode byte of each of the 29 mnemonics (30_encoding.md R65, R66). -/
structure OpcodeMap where
  nop : Byte
  ldaImm : Byte
  ldbImm : Byte
  ldcImm : Byte
  lddImm : Byte
  staAbs : Byte
  ldaAbs : Byte
  ldaIdx : Byte
  staIdx : Byte
  add : Byte
  sub : Byte
  and : Byte
  or : Byte
  inc : Byte
  dec : Byte
  cmp : Byte
  jmp : Byte
  jz : Byte
  jnz : Byte
  call : Byte
  ret : Byte
  movBA : Byte
  movAB : Byte
  movCA : Byte
  movAC : Byte
  movDA : Byte
  movAD : Byte
  inp : Byte
  halt : Byte
deriving DecidableEq, Repr

/-- The 29 assigned opcode bytes, in the order of R65's table. -/
def OpcodeMap.toList (m : OpcodeMap) : List Byte :=
  [m.nop, m.ldaImm, m.ldbImm, m.ldcImm, m.lddImm, m.staAbs, m.ldaAbs, m.ldaIdx,
   m.staIdx, m.add, m.sub, m.and, m.or, m.inc, m.dec, m.cmp,
   m.jmp, m.jz, m.jnz, m.call, m.ret, m.movBA, m.movAB, m.movCA,
   m.movAC, m.movDA, m.movAD, m.inp, m.halt]

/-- R6(f): the map is injective; no byte is assigned twice. -/
abbrev OpcodeMap.Injective (m : OpcodeMap) : Prop := m.toList.Nodup

/-- The construction parameters of R5. `STACK_TOP` is a byte, which is R6(b). DESIGN CHOICE (log entry 1):
the configuration is plain data carried in the state and written by the host's construct alone. -/
structure Config where
  fbWidth : Nat
  fbHeight : Nat
  vramStart : Nat
  scoreAddr : Nat
  highScoreAddr : Nat
  stackTop : Byte
  opcodes : OpcodeMap
deriving DecidableEq, Repr

/-- `MEM_LEN` of R5. -/
def Config.memLen (c : Config) : Nat := c.vramStart + c.fbWidth * c.fbHeight + 256

/-- The constraints R6 (a), (d), (e), (f); (b) is the type of `stackTop` and (c) follows. -/
abbrev Config.wf (c : Config) : Prop :=
  1 ≤ c.fbWidth ∧ 1 ≤ c.fbHeight ∧ c.memLen ≤ 65536 ∧
  c.scoreAddr ≠ c.highScoreAddr ∧ c.scoreAddr < c.memLen ∧ c.highScoreAddr < c.memLen ∧
  c.opcodes.Injective

end Sys2Proof
end

