-- ==== Sys2Proof/WellFormed.lean ====
section
/-! DEFINITION. Well-formed instructions. Operands are unconstrained (30_encoding.md R68) and their widths are
in their types, so the one check is that an undefined opcode is a byte that OPCODE_MAP leaves unassigned
(R67). -/

namespace Sys2Proof

/-- R67, R68: the instruction is one that some bytes encode under the opcode map `m`. -/
def Instr.wellFormed (m : OpcodeMap) : Instr → Bool
  | .nop => true
  | .ldaImm _ => true
  | .ldbImm _ => true
  | .ldcImm _ => true
  | .lddImm _ => true
  | .staAbs _ => true
  | .ldaAbs _ => true
  | .ldaIdx => true
  | .staIdx => true
  | .add => true
  | .sub => true
  | .and => true
  | .or => true
  | .inc => true
  | .dec => true
  | .cmp => true
  | .jmp _ => true
  | .jz _ => true
  | .jnz _ => true
  | .call _ => true
  | .ret => true
  | .movBA => true
  | .movAB => true
  | .movCA => true
  | .movAC => true
  | .movDA => true
  | .movAD => true
  | .inp => true
  | .halt => true
  | .undef op => decide (op ∉ m.toList)

/-- `i` is well-formed under the opcode map `m`. -/
abbrev Instr.WellFormed (m : OpcodeMap) (i : Instr) : Prop := i.wellFormed m = true

end Sys2Proof
end

