-- ==== Sys2Proof/Decode.lean ====
section
/-! DEFINITION. Decoding and encoding (30_encoding.md): the opcode map read both ways, the formats, the
little-endian operand, the decoder over a list of bytes, and the encoder. -/

namespace Sys2Proof

/-! ## Bytes of a 16-bit address (20_memory.md R36) -/

/-- `addr16[7:0]`, the byte at the lower address of an operand. -/
def lowByte (v : Addr16) : Byte := v.extractLsb' 0 8

/-- `addr16[15:8]`, the byte at the higher address of an operand. -/
def highByte (v : Addr16) : Byte := v.extractLsb' 8 8

/-- The concatenation of 00_scope.md, section 5, with `hi` the more significant byte. -/
def joinBytes (hi lo : Byte) : Addr16 := hi ++ lo

/-! ## The opcode map -/

/-- The reference assignment of R65 (the spec's own choice, D1; log entry 3). -/
def OpcodeMap.ref : OpcodeMap where
  nop := 0x00
  ldaImm := 0x01
  ldbImm := 0x02
  ldcImm := 0x03
  lddImm := 0x04
  staAbs := 0x05
  ldaAbs := 0x06
  ldaIdx := 0x07
  staIdx := 0x08
  add := 0x09
  sub := 0x0A
  and := 0x0B
  or := 0x0C
  inc := 0x0D
  dec := 0x0E
  cmp := 0x0F
  jmp := 0x10
  jz := 0x11
  jnz := 0x12
  call := 0x13
  ret := 0x14
  movBA := 0x15
  movAB := 0x16
  movCA := 0x17
  movAC := 0x18
  movDA := 0x19
  movAD := 0x1A
  inp := 0x1B
  halt := 0x1C

/-- The opcode byte that the map gives a mnemonic. -/
def OpcodeMap.byteOf (m : OpcodeMap) : Mnemonic → Byte
  | .nop => m.nop
  | .ldaImm => m.ldaImm
  | .ldbImm => m.ldbImm
  | .ldcImm => m.ldcImm
  | .lddImm => m.lddImm
  | .staAbs => m.staAbs
  | .ldaAbs => m.ldaAbs
  | .ldaIdx => m.ldaIdx
  | .staIdx => m.staIdx
  | .add => m.add
  | .sub => m.sub
  | .and => m.and
  | .or => m.or
  | .inc => m.inc
  | .dec => m.dec
  | .cmp => m.cmp
  | .jmp => m.jmp
  | .jz => m.jz
  | .jnz => m.jnz
  | .call => m.call
  | .ret => m.ret
  | .movBA => m.movBA
  | .movAB => m.movAB
  | .movCA => m.movCA
  | .movAC => m.movAC
  | .movDA => m.movDA
  | .movAD => m.movAD
  | .inp => m.inp
  | .halt => m.halt

/-- The mnemonic whose opcode byte is `b`; none makes `b` an undefined opcode (R67). -/
def OpcodeMap.lookup (m : OpcodeMap) (b : Byte) : Option Mnemonic :=
  Mnemonic.all.find? fun k => m.byteOf k == b

/-! ## Formats and lengths (R60, R61) -/

/-- The format column of R65. -/
def Mnemonic.format : Mnemonic → Format
  | .ldaImm | .ldbImm | .ldcImm | .lddImm => .f2
  | .staAbs | .ldaAbs | .jmp | .jz | .jnz | .call => .f3
  | .nop | .ldaIdx | .staIdx | .add | .sub | .and | .or
  | .inc | .dec | .cmp | .ret | .movBA | .movAB | .movCA
  | .movAC | .movDA | .movAD | .inp | .halt => .f1

/-- The length of a format in bytes. -/
def Format.length : Format → Nat
  | .f1 => 1
  | .f2 => 2
  | .f3 => 3

/-- The length of an instruction in bytes; an undefined opcode has length 1 (R61). -/
def Instr.length (i : Instr) : Nat :=
  match i.mnemonic with
  | some k => k.format.length
  | none => 1

/-! ## Decoding -/

/-- The instruction of a mnemonic, given the operand bytes fetched for it (R62, R63). -/
def Mnemonic.instr (k : Mnemonic) (imm : Byte) (addr : Addr16) : Instr :=
  match k with
  | .nop => .nop
  | .ldaImm => .ldaImm imm
  | .ldbImm => .ldbImm imm
  | .ldcImm => .ldcImm imm
  | .lddImm => .lddImm imm
  | .staAbs => .staAbs addr
  | .ldaAbs => .ldaAbs addr
  | .ldaIdx => .ldaIdx
  | .staIdx => .staIdx
  | .add => .add
  | .sub => .sub
  | .and => .and
  | .or => .or
  | .inc => .inc
  | .dec => .dec
  | .cmp => .cmp
  | .jmp => .jmp addr
  | .jz => .jz addr
  | .jnz => .jnz addr
  | .call => .call addr
  | .ret => .ret
  | .movBA => .movBA
  | .movAB => .movAB
  | .movCA => .movCA
  | .movAC => .movAC
  | .movDA => .movDA
  | .movAD => .movAD
  | .inp => .inp
  | .halt => .halt

/-- Why a list of bytes holds no whole instruction. The core itself never meets this: an operand byte beyond
memory reads as 0 (R64). -/
inductive DecodeError where
  /-- There is no opcode byte. -/
  | noOpcode
  /-- The list ends before the operand of this mnemonic does. -/
  | operandMissing (k : Mnemonic)
deriving DecidableEq, Repr

/-- The operand bytes of mnemonic `k` taken from the bytes that follow its opcode. -/
def decodeOperand (k : Mnemonic) (rest : List Byte) : Except DecodeError (Instr × List Byte) :=
  match k.format, rest with
  | .f1, rest => .ok (k.instr 0 0, rest)
  | .f2, imm :: rest => .ok (k.instr imm 0, rest)
  | .f3, lo :: hi :: rest => .ok (k.instr 0 (joinBytes hi lo), rest)
  | .f2, [] | .f3, [] | .f3, [_] => .error (.operandMissing k)

/-- The decoder: the instruction at the head of a list of bytes and the bytes after it. The opcode byte alone
determines the instruction and its length (R60, R61); an unassigned byte is an undefined opcode (R67). -/
def decode (m : OpcodeMap) : List Byte → Except DecodeError (Instr × List Byte)
  | [] => .error .noOpcode
  | op :: rest =>
    match m.lookup op with
    | some k => decodeOperand k rest
    | none => .ok (.undef op, rest)

/-- The bytes of an instruction as spec/opcode_table.json numbers its bits: the first byte is bits 7..0, the
second bits 15..8, the third bits 23..16; every bit from `nbits` up is 0. -/
def tableBytes (nbits w : Nat) : List Byte :=
  let v := w % 2 ^ nbits
  [BitVec.ofNat 8 v, BitVec.ofNat 8 (v / 2 ^ 8), BitVec.ofNat 8 (v / 2 ^ 16)]

/-- The instruction that the decoder reads, under the reference assignment, from a word of the opcode table. -/
def decodeTableWord (nbits w : Nat) : Option Instr :=
  match decode OpcodeMap.ref (tableBytes nbits w) with
  | .ok (i, _) => some i
  | .error _ => none

/-! ## Encoding -/

/-- The bytes of an instruction, lowest address first: the formats of R60 with the opcode bytes of the map. -/
def encode (m : OpcodeMap) : Instr → List Byte
  | .nop => [m.nop]
  | .ldaImm imm => [m.ldaImm, imm]
  | .ldbImm imm => [m.ldbImm, imm]
  | .ldcImm imm => [m.ldcImm, imm]
  | .lddImm imm => [m.lddImm, imm]
  | .staAbs addr => [m.staAbs, lowByte addr, highByte addr]
  | .ldaAbs addr => [m.ldaAbs, lowByte addr, highByte addr]
  | .ldaIdx => [m.ldaIdx]
  | .staIdx => [m.staIdx]
  | .add => [m.add]
  | .sub => [m.sub]
  | .and => [m.and]
  | .or => [m.or]
  | .inc => [m.inc]
  | .dec => [m.dec]
  | .cmp => [m.cmp]
  | .jmp addr => [m.jmp, lowByte addr, highByte addr]
  | .jz addr => [m.jz, lowByte addr, highByte addr]
  | .jnz addr => [m.jnz, lowByte addr, highByte addr]
  | .call addr => [m.call, lowByte addr, highByte addr]
  | .ret => [m.ret]
  | .movBA => [m.movBA]
  | .movAB => [m.movAB]
  | .movCA => [m.movCA]
  | .movAC => [m.movAC]
  | .movDA => [m.movDA]
  | .movAD => [m.movAD]
  | .inp => [m.inp]
  | .halt => [m.halt]
  | .undef op => [op]

end Sys2Proof
end

