-- ==== Sys2Proof/Machine/Reference.lean ====
section
/-! DEFINITION. The spec's reference configuration REF (00_scope.md R5, decision D5; log entry 2): the
configuration of the state after reset. -/

namespace Sys2Proof

/-- REF: a 16 by 16 framebuffer at 0x0100, STACK_TOP 0xFF, the score cells at 0x0200 and 0x0201, and the
reference opcode assignment; MEM_LEN is 0x0300. DESIGN CHOICE: the spec gives these values for examples. -/
def Config.ref : Config where
  fbWidth := 16
  fbHeight := 16
  vramStart := 0x0100
  scoreAddr := 0x0200
  highScoreAddr := 0x0201
  stackTop := 0xFF
  opcodes := OpcodeMap.ref

end Sys2Proof
end

