-- ==== Sys2Proof/Machine/State.lean ====
section
/-! DEFINITION. The machine's state as plain data (10_state.md, R10 to R22), the reasons a step could stop, and
the state after reset. -/

namespace Sys2Proof.Machine

/-- The four general registers of 10_state.md R10. -/
inductive Reg where
  | A | B | C | D
deriving DecidableEq, Repr

/-- The memory array `M` of 10_state.md R21 in canonical form: the cells whose byte is not 0, by rising
address. An unlisted address reads as 0, the reset value of every cell (R22). -/
abbrev Memory := List Host.Cell

/-- The canonical form: addresses strictly rising, and no cell equal to what an unlisted address reads as. -/
abbrev Memory.wf (m : Memory) : Prop :=
  m.Pairwise (fun x y => x.1 < y.1) ∧ ∀ c ∈ m, c.2 ≠ 0

/-- The complete state of one engine (10_state.md, R10 to R21), with the configuration it was constructed
with (00_scope.md R5; log entry 1), which only the host's construct writes. -/
structure State where
  /-- the construction parameters, R5 -/
  cfg : Config
  /-- register A, R10 -/
  a : Byte
  /-- register B, R10 -/
  b : Byte
  /-- register C, R10 -/
  c : Byte
  /-- register D, R10 -/
  d : Byte
  /-- the program counter, a natural number that no rule reduces, R12 -/
  pc : Nat
  /-- the stack pointer, R14 -/
  sp : Byte
  /-- the zero flag ZF, R15 -/
  zf : Bool
  /-- the carry flag CF, R15 -/
  cf : Bool
  /-- 1 when the next `step` will execute, R17 -/
  running : Bool
  /-- the pending input byte, 0 when none is pending, R18 -/
  pendingInput : Byte
  /-- the step counter, of no stated width, R19 -/
  steps : Nat
  /-- the memory array `M`, R21 -/
  mem : Memory
deriving DecidableEq, Repr

/-- The reasons a step stops with a fault. There is none: 60_exceptions.md R140, "nothing the engine does ever
raises". Nobody raises one; having no constructor is neither safe nor unsafe, it is the rule. -/
inductive Fault where
deriving DecidableEq, Repr

/-- The reasons the model refuses. -/
inductive Refusal where
  /-- Raised by an arm of `exec` for an instruction that has no meaning yet; no arm does so now. Safe. -/
  | notModelled (mnemonic : String)
  /-- Raised by the host's construct (Machine/HostOps.lean) for parameters outside 00_scope.md R6, which the
  spec refuses (D6); no step raises it. Safe. -/
  | configuration
deriving DecidableEq, Repr

/-- The state that construction leaves (10_state.md R22, 70_reset_and_hazards.md R160), whatever went before. -/
def State.constructed (cfg : Config) : State where
  cfg := cfg
  a := 0
  b := 0
  c := 0
  d := 0
  pc := 0
  sp := cfg.stackTop
  zf := false
  cf := false
  running := true
  pendingInput := 0
  steps := 0
  mem := []

/-- The machine right after reset in the reference configuration (R22; log entries 2 and 7). -/
def State.reset : State := State.constructed Config.ref

end Sys2Proof.Machine
end

