-- ==== Sys2Proof/Machine/Ops.lean ====
section
/-! DEFINITION. The named operations over memory and registers: bounds-checked byte access (20_memory.md R31,
R32), the register file (10_state.md R10), the program counter (R13), the stack (R38, R39), the pending-input
register (R18), the step counter (R19) and the stop state (R17).

There is no operation that takes an exception and none that returns from one: 60_exceptions.md R140, R144 and
R145 say that the core has neither. The nearest event, a stop, is `State.stop`. -/

namespace Sys2Proof.Machine

/-! ## The memory array -/

/-- The byte of cell `addr`; an unlisted cell holds its reset value 0 (R22). -/
def Memory.byteAt : Memory → Nat → Byte
  | [], _ => 0
  | cell :: rest, addr => if cell.1 = addr then cell.2 else Memory.byteAt rest addr

/-- The memory without a listed cell at `addr`. -/
def Memory.erase (m : Memory) (addr : Nat) : Memory := m.filter fun cell => cell.1 ≠ addr

/-- The cell `(addr, v)` put before the first cell of a higher address. -/
def Memory.place (addr : Nat) (v : Byte) : Memory → Memory
  | [] => [(addr, v)]
  | cell :: rest =>
    if addr < cell.1 then (addr, v) :: cell :: rest else cell :: Memory.place addr v rest

/-- `M[addr] <- v`, keeping the canonical form. -/
def Memory.put (m : Memory) (addr : Nat) (v : Byte) : Memory :=
  if v = 0 then m.erase addr else Memory.place addr v (m.erase addr)

/-- `MemRead(addr, 1)`, R31: an out-of-range address reads as 0. -/
def State.memRead (s : State) (addr : Nat) : Byte :=
  if addr < s.cfg.memLen then s.mem.byteAt addr else 0

/-- `MemWrite(addr, 1, v)`, R32: an out-of-range write changes no cell. -/
def State.memWrite (s : State) (addr : Nat) (v : Byte) : State :=
  { s with mem := if addr < s.cfg.memLen then s.mem.put addr v else s.mem }

/-- `bytes` put at `addr`, `addr + 1`, … by R32. -/
def State.writeBytes (s : State) (addr : Nat) : List Byte → State
  | [] => s
  | v :: rest => (s.memWrite addr v).writeBytes (addr + 1) rest

/-! ## The register file -/

/-- `x[r]`, 10_state.md R10. -/
def State.reg (s : State) : Reg → Byte
  | .A => s.a
  | .B => s.b
  | .C => s.c
  | .D => s.d

/-- `x[r] <- v`, 10_state.md R10. -/
def State.setReg (s : State) (r : Reg) (v : Byte) : State :=
  match r with
  | .A => { s with a := v }
  | .B => { s with b := v }
  | .C => { s with c := v }
  | .D => { s with d := v }

/-- `ZF <- z`, 10_state.md R15. -/
def State.setZero (s : State) (z : Bool) : State := { s with zf := z }

/-- `CF <- k`, 10_state.md R15. -/
def State.setCarry (s : State) (k : Bool) : State := { s with cf := k }

/-! ## The program counter, the step counter and the stop -/

/-- `PC <- PC + n`, never reduced (10_state.md R12, R13). -/
def State.advance (s : State) (n : Nat) : State := { s with pc := s.pc + n }

/-- `PC <- target`, an absolute 16-bit address, not masked or clamped (43_control.md R115). -/
def State.jump (s : State) (target : Addr16) : State := { s with pc := target.toNat }

/-- `steps <- steps + 1` (10_state.md R19). -/
def State.countStep (s : State) : State := { s with steps := s.steps + 1 }

/-- `running <- 0` (10_state.md R17): HALT and the out-of-bounds stop. -/
def State.stop (s : State) : State := { s with running := false }

/-! ## The stack -/

/-- `SP <- v` (10_state.md R14). -/
def State.setSp (s : State) (v : Byte) : State := { s with sp := v }

/-- One byte to the cell that SP names, then SP one down modulo 256: half of R38. -/
def State.pushByte (s : State) (v : Byte) : State := (s.memWrite s.sp.toNat v).setSp (s.sp - 1)

/-- `Push16(v)`, R38: `v mod 65536` (D7), low byte first. -/
def State.push16 (s : State) (v : Nat) : State :=
  let w : Addr16 := BitVec.ofNat 16 v
  (s.pushByte (lowByte w)).pushByte (highByte w)

/-- SP one up modulo 256 (D21), then the byte of the cell that SP names: half of R39. No cell changes. -/
def State.popByte (s : State) : Byte × State :=
  let t := s.setSp (s.sp + 1)
  (t.memRead t.sp.toNat, t)

/-- `Pop16()`, R39: the high byte first, then the low byte. -/
def State.pop16 (s : State) : Addr16 × State :=
  let hi := s.popByte
  let lo := hi.2.popByte
  (joinBytes hi.1 lo.1, lo.2)

/-! ## The pending-input register -/

/-- `pending_input <- v` (10_state.md R18). -/
def State.setPending (s : State) (v : Byte) : State := { s with pendingInput := v }

end Sys2Proof.Machine
end

