-- ==== Sys2Proof/Machine/Flags.lean ====
section
/-! DEFINITION. Every flag computation of the spec (10_state.md R16; 42_alu.md R107, R108), each a function of
the operand values before register A is overwritten, and the packed view of the flags (R15). -/

namespace Sys2Proof.Machine

/-- ZF of ADD, SUB, AND, OR, INC, DEC: the new value of A is 0 (R108). -/
def zeroFlag (result : Byte) : Bool := result == 0

/-- ZF of CMP: the operands are equal (R106). -/
def equalFlag (x y : Byte) : Bool := x == y

/-- CF of ADD: the exact sum exceeds 255 (R100). -/
def addCarry (x y : Byte) : Bool := decide (x.toNat + y.toNat > 255)

/-- CF of SUB: the true difference is negative, a borrow (R101). -/
def subBorrow (x y : Byte) : Bool := decide (x.toNat < y.toNat)

/-- `FLAGS` of 10_state.md R15: FLAGS[0] is ZF and FLAGS[1] is CF (the spec's packing, D20). -/
def State.flags (s : State) : BitVec 2 := BitVec.ofBool s.cf ++ BitVec.ofBool s.zf

/-- Register A and ZF take the result of an arithmetic or logical operation (R108). -/
def State.setResult (s : State) (result : Byte) : State :=
  (s.setReg .A result).setZero (zeroFlag result)

end Sys2Proof.Machine
end

