-- ==== Sys2Proof/Machine/Operands.lean ====
section
/-! DEFINITION. The operand forms (30_encoding.md R62, R63, R64; 20_memory.md R36, R37), the fetch of one
instruction at the program counter (40_step_and_nop.md R81) and the step contract around it (R80). Every byte is
read through R31, so an operand byte beyond memory is 0. -/

namespace Sys2Proof.Machine

/-- `Addr16(p)`, R36: little-endian. -/
def State.addr16 (s : State) (p : Nat) : Addr16 :=
  joinBytes (s.memRead (p + 1)) (s.memRead p)

/-- `imm8`, R62. -/
def State.imm8 (s : State) : Byte := s.memRead (s.pc + 1)

/-- `IdxAddr()`, R37: B + C in nine bits, 0 to 510, not reduced modulo 256. -/
def State.idxAddr (s : State) : Nat := s.b.toNat + s.c.toNat

/-- The fetch unit, R81: the instruction at PC with its operand, read before any effect of it (D9). -/
def State.fetch (s : State) : Instr :=
  match s.cfg.opcodes.lookup (s.memRead s.pc) with
  | some k => k.instr s.imm8 (s.addr16 (s.pc + 1))
  | none => .undef (s.memRead s.pc)

/-- The step contract, R80, over the execution of one instruction: nothing when stopped; the out-of-bounds stop
when PC is at or beyond MEM_LEN; else one fetch, one count of the step counter and one execution. -/
def State.cycle (s : State) (execute : Instr → State → Host.Outcome State Fault Refusal) :
    Host.Outcome State Fault Refusal :=
  if s.running = false then .next s
  else if s.cfg.memLen ≤ s.pc then .next s.stop
  else execute s.fetch s.countStep

end Sys2Proof.Machine
end

