-- ==== Sys2Proof/Machine/Alu.lean ====
section
/-! DEFINITION. Arithmetic, logic and compare (42_alu.md R100 to R108): unsigned, wrapping modulo 256. -/

namespace Sys2Proof.Machine

open Host (Outcome)

/-- `x[A] <- result`, ZF from the new A, PC + 1: what ADD, SUB, AND, OR, INC and DEC share (R108). -/
def State.finishAlu (s : State) (result : Byte) : State := (s.setResult result).advance 1

/-- ADD, R100: CF is the ninth bit of the exact sum of the old operands (R107). -/
def execAdd (s : State) : Outcome State Fault Refusal :=
  .next ((s.setCarry (addCarry (s.reg .A) (s.reg .B))).finishAlu (s.reg .A + s.reg .B))

/-- SUB, R101: CF is the borrow of the old operands (R107). -/
def execSub (s : State) : Outcome State Fault Refusal :=
  .next ((s.setCarry (subBorrow (s.reg .A) (s.reg .B))).finishAlu (s.reg .A - s.reg .B))

/-- AND, R102; CF unchanged. -/
def execAnd (s : State) : Outcome State Fault Refusal :=
  .next (s.finishAlu (s.reg .A &&& s.reg .B))

/-- OR, R103; CF unchanged. -/
def execOr (s : State) : Outcome State Fault Refusal :=
  .next (s.finishAlu (s.reg .A ||| s.reg .B))

/-- INC, R104; CF unchanged, also on the wrap. -/
def execInc (s : State) : Outcome State Fault Refusal :=
  .next (s.finishAlu (s.reg .A + 1))

/-- DEC, R105; CF unchanged, also on the wrap. -/
def execDec (s : State) : Outcome State Fault Refusal :=
  .next (s.finishAlu (s.reg .A - 1))

/-- CMP, R106: ZF says equal; no register and no carry is written. -/
def execCmp (s : State) : Outcome State Fault Refusal :=
  .next ((s.setZero (equalFlag (s.reg .A) (s.reg .B))).advance 1)

end Sys2Proof.Machine
end

