-- ==== Sys2Proof/Machine/Basic.lean ====
section
/-! DEFINITION. NOP and the undefined opcode (40_step_and_nop.md R82, R83). -/

namespace Sys2Proof.Machine

open Host (Outcome)

/-- NOP, R82. -/
def execNop (s : State) : Outcome State Fault Refusal :=
  .next (s.advance 1)

/-- UNDEF, R83: any byte that OPCODE_MAP leaves unassigned is a one-byte no-op and never raises. -/
def execUndef (_op : Byte) (s : State) : Outcome State Fault Refusal :=
  .next (s.advance 1)

end Sys2Proof.Machine
end

