-- ==== Sys2Proof/Machine/Control.lean ====
section
/-! DEFINITION. The control transfers (43_control.md R110 to R115): absolute targets, never masked. -/

namespace Sys2Proof.Machine

open Host (Outcome)

/-- The two ways out of a conditional transfer: PC <- addr16, or PC + 3 past the instruction (R111, R112). -/
def State.branch (s : State) (taken : Bool) (addr : Addr16) : State :=
  { s with pc := if taken then addr.toNat else s.pc + 3 }

/-- JMP, R110. -/
def execJmp (addr : Addr16) (s : State) : Outcome State Fault Refusal :=
  .next (s.jump addr)

/-- JZ, R111. -/
def execJz (addr : Addr16) (s : State) : Outcome State Fault Refusal :=
  .next (s.branch s.zf addr)

/-- JNZ, R112. -/
def execJnz (addr : Addr16) (s : State) : Outcome State Fault Refusal :=
  .next (s.branch (!s.zf) addr)

/-- CALL, R113: the operand was read by the fetch (D9; log entry 8); the return address is pushed modulo 65536
(D7; log entry 9). -/
def execCall (addr : Addr16) (s : State) : Outcome State Fault Refusal :=
  .next ((s.push16 (s.pc + 3)).jump addr)

/-- RET, R114. -/
def execRet (s : State) : Outcome State Fault Refusal :=
  .next (s.pop16.2.jump s.pop16.1)

end Sys2Proof.Machine
end

