-- ==== Sys2Proof/Machine/LoadStore.lean ====
section
/-! DEFINITION. The loads and stores (41_load_store.md R90 to R97). None changes a flag (D4; log entry 5). -/

namespace Sys2Proof.Machine

open Host (Outcome)

/-- LDA_IMM, R90. -/
def execLdaImm (imm : Byte) (s : State) : Outcome State Fault Refusal :=
  .next ((s.setReg .A imm).advance 2)

/-- LDB_IMM, R91. -/
def execLdbImm (imm : Byte) (s : State) : Outcome State Fault Refusal :=
  .next ((s.setReg .B imm).advance 2)

/-- LDC_IMM, R92. -/
def execLdcImm (imm : Byte) (s : State) : Outcome State Fault Refusal :=
  .next ((s.setReg .C imm).advance 2)

/-- LDD_IMM, R93. -/
def execLddImm (imm : Byte) (s : State) : Outcome State Fault Refusal :=
  .next ((s.setReg .D imm).advance 2)

/-- STA_ABS, R94. -/
def execStaAbs (addr : Addr16) (s : State) : Outcome State Fault Refusal :=
  .next ((s.memWrite addr.toNat (s.reg .A)).advance 3)

/-- LDA_ABS, R95. -/
def execLdaAbs (addr : Addr16) (s : State) : Outcome State Fault Refusal :=
  .next ((s.setReg .A (s.memRead addr.toNat)).advance 3)

/-- LDA_IDX, R96. -/
def execLdaIdx (s : State) : Outcome State Fault Refusal :=
  .next ((s.setReg .A (s.memRead s.idxAddr)).advance 1)

/-- STA_IDX, R97. -/
def execStaIdx (s : State) : Outcome State Fault Refusal :=
  .next ((s.memWrite s.idxAddr (s.reg .A)).advance 1)

end Sys2Proof.Machine
end

