-- ==== Sys2Proof/Machine/Mov.lean ====
section
/-! DEFINITION. The register copies (44_mov.md R120 to R126). MOV_XY is X <- Y (R126, the spec's decision D2; log entry 4). -/

namespace Sys2Proof.Machine

open Host (Outcome)

/-- A register-to-register copy, all 8 bits, no flag (R126). -/
def State.copyReg (s : State) (dst src : Reg) : State := (s.setReg dst (s.reg src)).advance 1

/-- MOV_BA, R120: B <- A. -/
def execMovBA (s : State) : Outcome State Fault Refusal :=
  .next (s.copyReg .B .A)

/-- MOV_AB, R121: A <- B. -/
def execMovAB (s : State) : Outcome State Fault Refusal :=
  .next (s.copyReg .A .B)

/-- MOV_CA, R122: C <- A. -/
def execMovCA (s : State) : Outcome State Fault Refusal :=
  .next (s.copyReg .C .A)

/-- MOV_AC, R123: A <- C. -/
def execMovAC (s : State) : Outcome State Fault Refusal :=
  .next (s.copyReg .A .C)

/-- MOV_DA, R124: D <- A. -/
def execMovDA (s : State) : Outcome State Fault Refusal :=
  .next (s.copyReg .D .A)

/-- MOV_AD, R125: A <- D. -/
def execMovAD (s : State) : Outcome State Fault Refusal :=
  .next (s.copyReg .A .D)

end Sys2Proof.Machine
end

