-- ==== Sys2Proof/Machine/System.lean ====
section
/-! DEFINITION. Input and halt (45_system.md R130 to R132). -/

namespace Sys2Proof.Machine

open Host (Outcome)

/-- INP, R130: a poll that never waits; 0 when nothing is pending. -/
def execInp (s : State) : Outcome State Fault Refusal :=
  .next (((s.setReg .A s.pendingInput).setPending 0).advance 1)

/-- HALT, R131: PC keeps the address of the HALT opcode (the spec's decision D3; log entry 10). -/
def execHalt (s : State) : Outcome State Fault Refusal :=
  .next s.stop

end Sys2Proof.Machine
end

