-- ==== Sys2Proof/Machine/Dispatch.lean ====
section
/-! DEFINITION. One arm per instruction: the dispatch of 40_step_and_nop.md R81. -/

namespace Sys2Proof.Machine

def exec (i : Instr) (s : State) : Host.Outcome State Fault Refusal :=
  match i with
  | .nop => Sys2Proof.Machine.execNop s
  | .ldaImm imm => Sys2Proof.Machine.execLdaImm imm s
  | .ldbImm imm => Sys2Proof.Machine.execLdbImm imm s
  | .ldcImm imm => Sys2Proof.Machine.execLdcImm imm s
  | .lddImm imm => Sys2Proof.Machine.execLddImm imm s
  | .staAbs addr => Sys2Proof.Machine.execStaAbs addr s
  | .ldaAbs addr => Sys2Proof.Machine.execLdaAbs addr s
  | .ldaIdx => Sys2Proof.Machine.execLdaIdx s
  | .staIdx => Sys2Proof.Machine.execStaIdx s
  | .add => Sys2Proof.Machine.execAdd s
  | .sub => Sys2Proof.Machine.execSub s
  | .and => Sys2Proof.Machine.execAnd s
  | .or => Sys2Proof.Machine.execOr s
  | .inc => Sys2Proof.Machine.execInc s
  | .dec => Sys2Proof.Machine.execDec s
  | .cmp => Sys2Proof.Machine.execCmp s
  | .jmp addr => Sys2Proof.Machine.execJmp addr s
  | .jz addr => Sys2Proof.Machine.execJz addr s
  | .jnz addr => Sys2Proof.Machine.execJnz addr s
  | .call addr => Sys2Proof.Machine.execCall addr s
  | .ret => Sys2Proof.Machine.execRet s
  | .movBA => Sys2Proof.Machine.execMovBA s
  | .movAB => Sys2Proof.Machine.execMovAB s
  | .movCA => Sys2Proof.Machine.execMovCA s
  | .movAC => Sys2Proof.Machine.execMovAC s
  | .movDA => Sys2Proof.Machine.execMovDA s
  | .movAD => Sys2Proof.Machine.execMovAD s
  | .inp => Sys2Proof.Machine.execInp s
  | .halt => Sys2Proof.Machine.execHalt s
  | .undef op => Sys2Proof.Machine.execUndef op s

end Sys2Proof.Machine
end

