-- ==== Sys2Proof/Machine/Step.lean ====
section
/-! DEFINITION. The step contract (40_step_and_nop.md R80), and the placing of a word where the next step
fetches. -/

namespace Sys2Proof.Machine

/-- `step()`, R80. -/
def step (s : State) : Host.Outcome State Fault Refusal := s.cycle exec

/-- `s` with the instruction of an opcode-table word stored at PC, and running, so that the next step fetches and
runs it: it stands for the host's load of a program (log entry 6). -/
def State.withFetchWord (s : State) (nbits w : Nat) : State :=
  { s.writeBytes s.pc (tableBytes nbits w) with running := true }

end Sys2Proof.Machine
end

