-- ==== Sys2Proof/Machine/Access.lean ====
section
/-! DEFINITION. The memory accesses of one step in order (20_memory.md R54), the regions of the address map (R34)
and the readers and writers of registers and flags (10_state.md R11, R16). `step` does not read these
definitions: they are the spec's own tables, for statements to compare the step with (log entry 20). -/

namespace Sys2Proof.Machine

/-- One access of R54: `r a` is `MemRead(a, 1)`, `w a` is `MemWrite(a, 1, _)`. -/
inductive Access where
  | r (addr : Nat)
  | w (addr : Nat)
deriving DecidableEq, Repr

/-- The reads of the fetch: opcode, then operand bytes low before high (R54, R81). -/
def fetchAccesses (pc : Nat) : Format → List Access
  | .f1 => [.r pc]
  | .f2 => [.r pc, .r (pc + 1)]
  | .f3 => [.r pc, .r (pc + 1), .r (pc + 2)]

/-- The data accesses of R54's table; PC, SP, B and C are the values at the start of the step. -/
def dataAccesses (k : Mnemonic) (s : State) : List Access :=
  match k with
  | .staAbs => [.w (s.addr16 (s.pc + 1)).toNat]
  | .ldaAbs => [.r (s.addr16 (s.pc + 1)).toNat]
  | .ldaIdx => [.r s.idxAddr]
  | .staIdx => [.w s.idxAddr]
  | .call => [.w s.sp.toNat, .w (s.sp - 1).toNat]
  | .ret => [.r (s.sp + 1).toNat, .r (s.sp + 2).toNat]
  | .nop | .ldaImm | .ldbImm | .ldcImm | .lddImm | .add | .sub | .and | .or | .inc | .dec | .cmp
  | .jmp | .jz | .jnz | .movBA | .movAB | .movCA | .movAC | .movDA | .movAD | .inp | .halt => []

/-- R54: the accesses of the step that starts in `s`; a step that does not fetch makes none (R80). -/
def State.accesses (s : State) : List Access :=
  if s.running = false ∨ s.cfg.memLen ≤ s.pc then []
  else
    match s.cfg.opcodes.lookup (s.memRead s.pc) with
    | some k => fetchAccesses s.pc k.format ++ dataAccesses k s
    | none => fetchAccesses s.pc .f1

/-- The regions of the address map, R34; they do not overlap and leave no address out. The two score cells lie
wherever SCORE_ADDR and HIGH_SCORE_ADDR put them. -/
inductive Region where
  | low
  | framebuffer
  | tail
  | outOfRange
deriving DecidableEq, Repr

/-- R34: the region of an address. The core treats all in-range addresses alike. -/
def regionOf (cfg : Config) (addr : Nat) : Region :=
  if addr < cfg.vramStart then .low
  else if addr < cfg.vramStart + cfg.fbWidth * cfg.fbHeight then .framebuffer
  else if addr < cfg.memLen then .tail
  else .outOfRange

/-- The "Read by" column of 10_state.md R11. -/
def readersOf : Reg → List Mnemonic
  | .A => [.staAbs, .staIdx, .add, .sub, .and, .or, .inc, .dec, .cmp, .movBA, .movCA, .movDA]
  | .B => [.add, .sub, .and, .or, .cmp, .ldaIdx, .staIdx, .movAB]
  | .C => [.ldaIdx, .staIdx, .movAC]
  | .D => [.movAD]

/-- The "Written by" column of 10_state.md R11. -/
def writersOf : Reg → List Mnemonic
  | .A => [.ldaImm, .ldaAbs, .ldaIdx, .add, .sub, .and, .or, .inc, .dec, .movAB, .movAC, .movAD, .inp]
  | .B => [.ldbImm, .movBA]
  | .C => [.ldcImm, .movCA]
  | .D => [.lddImm, .movDA]

/-- The writers of ZF, 10_state.md R16. -/
def zeroWriters : List Mnemonic := [.add, .sub, .and, .or, .inc, .dec, .cmp]

/-- The writers of CF, 10_state.md R16. -/
def carryWriters : List Mnemonic := [.add, .sub]

end Sys2Proof.Machine
end

