-- ==== Sys2Proof/Machine/HostOps.lean ====
section
/-! DEFINITION. The host's moves on the core, all atomic and all between steps (70_reset_and_hazards.md R175;
20_memory.md R51 to R53; 10_state.md R18, R23, R24). -/

namespace Sys2Proof.Machine

open Host (Outcome)

/-- `peek(addr)`, R51. -/
def State.peek (s : State) (addr : Nat) : Byte := s.memRead addr

/-- `poke(addr, value)`, R51. -/
def State.poke (s : State) (addr : Nat) (value : Byte) : State := s.memWrite addr value

/-- `load_program(bytes, start_addr)`, R52: byte i goes to start_addr + i when that is in range, else it is
dropped. -/
def State.loadProgram (s : State) (bytes : List Byte) (start : Nat) : State := s.writeBytes start bytes

/-- `set_pending_input(byte)`, R18: unconditional, so a second injection overwrites the first. -/
def State.setPendingInput (s : State) (v : Byte) : State := s.setPending v

/-- What inspection shows (R23): the register file, the flags and `running`, and nothing else. -/
structure Inspection where
  a : Byte
  b : Byte
  c : Byte
  d : Byte
  pc : Nat
  sp : Byte
  zf : Bool
  cf : Bool
  running : Bool
deriving DecidableEq, Repr

/-- Inspection, R23. -/
def State.inspect (s : State) : Inspection where
  a := s.a
  b := s.b
  c := s.c
  d := s.d
  pc := s.pc
  sp := s.sp
  zf := s.zf
  cf := s.cf
  running := s.running

/-- `construct(width, height)`, R160: the other constants are those of this engine. Parameters outside
00_scope.md R6 are refused (D6). -/
def State.construct (s : State) (width height : Nat) : Outcome State Fault Refusal :=
  let cfg := { s.cfg with fbWidth := width, fbHeight := height }
  if cfg.wf then .next (State.constructed cfg) else .refused .configuration

/-- The host's moves, R175. -/
inductive HostMove where
  | construct (width height : Nat)
  | step
  | loadProgram (bytes : List Byte) (start : Nat)
  | poke (addr : Nat) (value : Byte)
  | peek (addr : Nat)
  | setPendingInput (value : Byte)
  | inspect
deriving DecidableEq, Repr

/-- The state that a host move leaves (R175). -/
def hostMove (move : HostMove) (s : State) : Outcome State Fault Refusal :=
  match move with
  | .construct width height => s.construct width height
  | .step => step s
  | .loadProgram bytes start => .next (s.loadProgram bytes start)
  | .poke addr value => .next (s.poke addr value)
  | .peek _ => .next s
  | .setPendingInput value => .next (s.setPendingInput value)
  | .inspect => .next s

/-- What a host move returns to the host (R24). -/
inductive HostReply where
  | none
  | byte (v : Byte)
  | registers (view : Inspection)
deriving DecidableEq, Repr

/-- The result column of R24's table. -/
def hostReply (move : HostMove) (s : State) : HostReply :=
  match move with
  | .peek addr => .byte (s.peek addr)
  | .inspect => .registers s.inspect
  | .construct _ _ | .step | .loadProgram _ _ | .poke _ _ | .setPendingInput _ => .none

end Sys2Proof.Machine
end

