-- ==== Sys2Proof/Safety.lean ====
section
/-! DEFINITION. The terms in which claims speak of runs: the invariant of a state, the states that a host can
reach, and the end of a run (70_reset_and_hazards.md R173). -/

namespace Sys2Proof.Machine

/-- The invariant of the machine: a configuration within 00_scope.md R6, memory in canonical form and inside
`[0, MEM_LEN)` (20_memory.md R30), and PC at most 65538 (10_state.md R12). -/
abbrev State.Inv (s : State) : Prop :=
  s.cfg.wf ∧ s.mem.wf ∧ (∀ cell ∈ s.mem, cell.1 < s.cfg.memLen) ∧ s.pc ≤ 65538

/-- The states that a host can bring an engine to, from any configuration within R6, by any moves of
70_reset_and_hazards.md R175 in any order. -/
inductive Reachable : State → Prop where
  | construct {cfg : Config} (h : cfg.wf) : Reachable (State.constructed cfg)
  | move {s t : State} {m : HostMove} (h : Reachable s) (hm : hostMove m s = .next t) : Reachable t

/-- The end of a run, R173. -/
abbrev State.Ended (s : State) : Prop := s.running = false

/-- The next step of `s` fetches and executes an opcode (R80). -/
abbrev State.Fetches (s : State) : Prop := s.running = true ∧ s.pc < s.cfg.memLen

/-- Every byte that a load could see is the same in `t` as in `s`. -/
def SameBytes (s t : State) : Prop := ∀ addr, t.memRead addr = s.memRead addr

/-- The three bytes from PC on, as the fetch reads them: a byte beyond memory is 0 (30_encoding.md R64). -/
def State.fetchBytes (s : State) : List Byte :=
  [s.memRead s.pc, s.memRead (s.pc + 1), s.memRead (s.pc + 2)]

/-- The cells from `addr` on hold `bytes`. -/
def State.Holds (s : State) (addr : Nat) (bytes : List Byte) : Prop :=
  ∀ k (h : k < bytes.length), s.memRead (addr + k) = bytes[k]

end Sys2Proof.Machine
end

