-- ==== Sys2Proof/Certificates/Slice0/Obligations.lean ====
section
/-! DEFINITION. The statements for the provers. A statement whose rule carries a decision of the spec's own names
that decision and the log entry; it is then no stated rule but the model's reading of one. -/

open Sys2Proof Sys2Proof.Machine

/-- decode undoes encode for every well-formed instruction under every injective opcode map. Rests on
30_encoding.md sections 1 to 4. -/
def Obligations.DecodeOfEncodeIsTheInstruction : Prop :=
  ∀ (m : OpcodeMap) (i : Instr) (rest : List Byte), m.Injective → i.WellFormed m →
    decode m (encode m i ++ rest) = .ok (i, rest)

/-- Whatever the decoder accepts is well-formed and encodes back to the bytes consumed. Rests on 30_encoding.md
sections 1 and 4. -/
def Obligations.EncodeOfDecodeIsTheBytes : Prop :=
  ∀ (m : OpcodeMap) (bytes rest : List Byte) (i : Instr), decode m bytes = .ok (i, rest) →
    i.WellFormed m ∧ encode m i ++ rest = bytes

/-- The opcode byte alone determines the mnemonic and the length: 1, 2 or 3 bytes by R65's table, 1 for an
undefined opcode. Rule R61. -/
def Obligations.OpcodeByteAloneGivesTheLength : Prop :=
  ∀ (m : OpcodeMap) (op : Byte),
    (∀ (xs ys xs' ys' : List Byte) (i j : Instr),
      decode m (op :: xs) = .ok (i, xs') → decode m (op :: ys) = .ok (j, ys') →
      i.mnemonic = j.mnemonic ∧ i.length = j.length ∧ (op :: xs).length = i.length + xs'.length) ∧
    (op ∉ m.toList → ∀ xs, ∃ i, decode m (op :: xs) = .ok (i, xs) ∧ i.length = 1) ∧
    (m.Injective → ∀ (k : Mnemonic) (xs : List Byte), 2 ≤ xs.length → ∃ i rest,
      decode m (m.byteOf k :: xs) = .ok (i, rest) ∧ i.mnemonic = some k ∧
      xs.length + 1 = i.length + rest.length ∧
      i.length = match k with
        | .ldaImm | .ldbImm | .ldcImm | .lddImm => 2
        | .staAbs | .ldaAbs | .jmp | .jz | .jnz | .call => 3
        | .nop | .ldaIdx | .staIdx | .add | .sub | .and | .or | .inc | .dec | .cmp | .ret
        | .movBA | .movAB | .movCA | .movAC | .movDA | .movAD | .inp | .halt => 1) ∧
    ∀ s t : State, s.cfg.opcodes = t.cfg.opcodes → s.memRead s.pc = t.memRead t.pc →
      s.fetch.mnemonic = t.fetch.mnemonic ∧ s.fetch.length = t.fetch.length

/-- A byte that is none of the 29 assigned values, and no other, decodes to an undefined opcode, which acts as
NOP. Rule R67. -/
def Obligations.UnassignedBytesAreNoOps : Prop :=
  (∀ (m : OpcodeMap) (b : Byte) (rest : List Byte),
    decode m (b :: rest) = .ok (.undef b, rest) ↔ ∀ k, m.byteOf k ≠ b) ∧
  ∀ (b : Byte) (s : State), exec (.undef b) s = .next { s with pc := s.pc + 1 } ∧
    exec (.undef b) s = exec .nop s

/-- Every injective opcode map leaves exactly 227 of the 256 byte values undefined. Rests on 30_encoding.md
sections 3 and 4. -/
def Obligations.UndefinedOpcodesNumber227 : Prop :=
  ∀ m : OpcodeMap, m.Injective →
    (((List.range 256).map (BitVec.ofNat 8)).filter fun b => (m.lookup b).isNone).length = 227

/-- Words written out from R65 decode to their instructions (the opcode bytes are the spec's choice D1, log
entry 3). Rests on 30_encoding.md section 3, 95_test_vectors.md. -/
def Obligations.ReferenceWordsDecode : Prop :=
  decode .ref [0x00] = .ok (.nop, []) ∧ decode .ref [0x01, 0x05] = .ok (.ldaImm 5, []) ∧
  decode .ref [0x05, 0x00, 0x01] = .ok (.staAbs 0x0100, []) ∧ decode .ref [0x08] = .ok (.staIdx, []) ∧
  decode .ref [0x0A] = .ok (.sub, []) ∧ decode .ref [0x10, 0x34, 0x02] = .ok (.jmp 0x0234, []) ∧
  decode .ref [0x13, 0x09, 0x00] = .ok (.call 9, []) ∧ decode .ref [0x19] = .ok (.movDA, []) ∧
  decode .ref [0x1C] = .ok (.halt, []) ∧ decode .ref [0xFF] = .ok (.undef 0xFF, [])

/-- A step that fetches is exec of the instruction its bytes decode to, after counting one step (operand first:
D9, log entry 8). Rests on 40_step_and_nop.md section 1. -/
def Obligations.StepRunsTheDecodedInstruction : Prop :=
  ∀ (s : State) (i : Instr) (rest : List Byte), s.Fetches →
    decode s.cfg.opcodes s.fetchBytes = .ok (i, rest) →
    step s = exec i { s with steps := s.steps + 1 }

/-- Where memory at PC holds the encoding of i, a step is exec of i after counting one step (operand first: D9,
log entry 8). Rests on 40_step_and_nop.md section 1, 30_encoding.md sections 1 to 3. -/
def Obligations.StepRunsWhatMemoryHolds : Prop :=
  ∀ (s : State) (i : Instr), s.cfg.opcodes.Injective → i.WellFormed s.cfg.opcodes → s.Fetches →
    s.Holds s.pc (encode s.cfg.opcodes i) → step s = exec i { s with steps := s.steps + 1 }

/-- A step with PC at or beyond MEM_LEN clears running and changes nothing else. Rests on 40_step_and_nop.md
section 1. -/
def Obligations.StepOutsideMemoryStops : Prop :=
  ∀ s : State, s.running = true → s.cfg.memLen ≤ s.pc → step s = .next { s with running := false }

/-- No step or instruction faults or is refused; the two stops only clear running (PC after HALT: D3, log entry
10). Rests on 60_exceptions.md section 1. -/
def Obligations.StepAlwaysAnswersANextState : Prop :=
  (∀ s : State, ∃ t, step s = .next t) ∧ (∀ (i : Instr) (s : State), ∃ t, exec i s = .next t) ∧
  (∀ s : State, s.running = true → s.cfg.memLen ≤ s.pc → step s = .next { s with running := false }) ∧
  ∀ s : State, exec .halt s = .next { s with running := false }

/-- steps grows by one on every step that fetches and by none on any other. Rests on 10_state.md section 5,
60_exceptions.md section 5. -/
def Obligations.StepCountsExecutedOpcodesOnly : Prop :=
  ∀ s : State, ∃ t, step s = .next t ∧
    (s.Fetches → t.steps = s.steps + 1) ∧ (¬ s.Fetches → t.steps = s.steps)

/-- running is cleared by executing HALT or by a step with PC out of range, by nothing else, and is final for
the core. Rule R173. -/
def Obligations.RunEndsInExactlyTwoWays : Prop :=
  (∀ s : State, s.running = true → ∃ t, step s = .next t ∧
    (t.running = false ↔ s.cfg.memLen ≤ s.pc ∨ (s.pc < s.cfg.memLen ∧ s.fetch = .halt))) ∧
  ∀ s : State, s.running = false → step s = .next s

/-- Every step keeps the invariant: configuration legal, memory canonical and in bounds, PC at most 65538. Rests
on 10_state.md section 2, 20_memory.md section 1, 00_scope.md section 4. -/
def Obligations.StepKeepsTheInvariant : Prop :=
  ∀ s t : State, s.Inv → step s = .next t → t.Inv ∧ t.cfg = s.cfg

/-- The reset state meets the invariant, and so does construction from every legal configuration. Rests on
10_state.md section 8, 70_reset_and_hazards.md section 1. -/
def Obligations.ResetMeetsTheInvariant : Prop :=
  State.reset.Inv ∧ ∀ cfg : Config, cfg.wf → (State.constructed cfg).Inv

/-- Every host move but step also keeps the invariant. Rests on 70_reset_and_hazards.md section 3, 20_memory.md
section 7. -/
def Obligations.HostMovesKeepTheInvariant : Prop :=
  ∀ (s t : State) (move : HostMove), move ≠ .step → s.Inv → hostMove move s = .next t → t.Inv

/-- Whatever the host does in whatever order, the engine stays within the invariant (host moves: D12; PC bound:
D6; log entries 12, 13). Rests on 70_reset_and_hazards.md sections 1 and 3, 10_state.md section 2. -/
def Obligations.ReachableStatesMeetTheInvariant : Prop :=
  ∀ s : State, Reachable s → s.Inv

/-- peek and inspection change nothing, poke and load_program only memory, set_pending_input only its register.
Rests on 70_reset_and_hazards.md section 3, 10_state.md section 9, 20_memory.md section 7. -/
def Obligations.HostMovesChangeOnlyTheirOwnState : Prop :=
  ∀ s : State,
    (∀ addr, hostMove (.peek addr) s = .next s ∧ hostReply (.peek addr) s = .byte (s.memRead addr)) ∧
    (hostMove .inspect s = .next s ∧
      hostReply .inspect s = .registers ⟨s.a, s.b, s.c, s.d, s.pc, s.sp, s.zf, s.cf, s.running⟩) ∧
    (∀ addr v, ∃ t, hostMove (.poke addr v) s = .next t ∧ t = { s with mem := t.mem }) ∧
    (∀ bytes start, ∃ t, hostMove (.loadProgram bytes start) s = .next t ∧ t = { s with mem := t.mem }) ∧
    ∀ v, hostMove (.setPendingInput v) s = .next { s with pendingInput := v }

/-- Once stopped, an engine stays stopped under every host move but construct (the spec's decision D15, log
entry 12). Rests on 60_exceptions.md section 9, 70_reset_and_hazards.md section 1. -/
def Obligations.OnlyConstructMakesAStoppedEngineRun : Prop :=
  ∀ (s t : State) (move : HostMove), s.running = false → (∀ w h, move ≠ .construct w h) →
    hostMove move s = .next t →
    t.running = false ∧ t = { s with mem := t.mem, pendingInput := t.pendingInput }

/-- Every instruction leaves PC as R13's table says (HALT's row is the spec's decision D3, log entry 10). Rests
on 10_state.md section 2. -/
def Obligations.ProgramCounterTable : Prop :=
  ∀ (i : Instr) (s : State), ∃ t, exec i s = .next t ∧
    t.pc = match i with
      | .jmp addr | .call addr => addr.toNat
      | .jz addr => if s.zf = true then addr.toNat else s.pc + 3
      | .jnz addr => if s.zf = false then addr.toNat else s.pc + 3
      | .ret => (s.memRead ((s.sp.toNat + 1) % 256)).toNat * 256 +
          (s.memRead ((s.sp.toNat + 2) % 256)).toNat
      | .halt => s.pc
      | _ => s.pc + i.length

/-- A general register changes only under the instructions that R11's table lists as its writers (MOV rows: D2,
log entry 4). Rests on 10_state.md section 1. -/
def Obligations.GeneralRegistersHaveOnlyTheirWriters : Prop :=
  ∀ (r : Reg) (i : Instr) (s t : State), (∀ k ∈ writersOf r, i.mnemonic ≠ some k) →
    exec i s = .next t → t.reg r = s.reg r

/-- A general register influences only the instructions that R11's table lists as its readers (MOV rows: D2, log
entry 4). Rests on 10_state.md section 1. -/
def Obligations.GeneralRegistersHaveOnlyTheirReaders : Prop :=
  ∀ (r : Reg) (v : Byte) (i : Instr) (s : State), (∀ k ∈ readersOf r, i.mnemonic ≠ some k) →
    ∃ t u, exec i s = .next t ∧ exec i (s.setReg r v) = .next u ∧
      ((∃ k ∈ writersOf r, i.mnemonic = some k) → u = t) ∧
      ((∀ k ∈ writersOf r, i.mnemonic ≠ some k) → u = t.setReg r v)

/-- ZF changes only under ADD, SUB, AND, OR, INC, DEC, CMP, and CF only under ADD, SUB (the spec's decision D4,
log entry 5). Rests on 10_state.md section 4. -/
def Obligations.FlagsHaveOnlyTheirWriters : Prop :=
  ∀ (i : Instr) (s t : State), exec i s = .next t →
    ((∀ k ∈ zeroWriters, i.mnemonic ≠ some k) → t.zf = s.zf) ∧
    ((∀ k ∈ carryWriters, i.mnemonic ≠ some k) → t.cf = s.cf)

/-- ADD, SUB, AND, OR, INC, DEC set ZF iff the new A is 0; AND, OR, INC, DEC, CMP leave CF as it was. Rule R108. -/
def Obligations.ZeroFlagFollowsTheNewAccumulator : Prop :=
  (∀ i ∈ [Instr.add, .sub, .and, .or, .inc, .dec], ∀ s : State, ∃ t, exec i s = .next t ∧
    (t.zf = true ↔ t.a.toNat = 0)) ∧
  (∀ i ∈ [Instr.and, .or, .inc, .dec, .cmp], ∀ s : State, ∃ t, exec i s = .next t ∧ t.cf = s.cf) ∧
  ∀ (i : Instr) (s t : State), i ≠ .add → i ≠ .sub → exec i s = .next t → t.cf = s.cf

/-- CF and steps are read by no instruction: steps from states that differ only there differ only there. Rests
on 10_state.md sections 4 and 5. -/
def Obligations.CarryAndStepCountInfluenceNothing : Prop :=
  ∀ (s : State) (k : Bool) (n : Nat), ∃ t u, step s = .next t ∧
    step { s with cf := k, steps := n } = .next u ∧ u = { t with cf := u.cf, steps := u.steps }

/-- SP is written and read by CALL and RET alone. Rests on 10_state.md section 3. -/
def Obligations.OnlyCallAndRetUseTheStackPointer : Prop :=
  ∀ (i : Instr) (s : State) (v : Byte), (∀ addr, i ≠ .call addr) → i ≠ .ret →
    ∃ t, exec i s = .next t ∧ t.sp = s.sp ∧ exec i { s with sp := v } = .next { t with sp := v }

/-- pending_input is written and read by INP alone among the instructions. Rests on 10_state.md section 5. -/
def Obligations.OnlyInpUsesThePendingInput : Prop :=
  ∀ (i : Instr) (s : State) (v : Byte), i ≠ .inp →
    ∃ t, exec i s = .next t ∧ t.pendingInput = s.pendingInput ∧
      exec i { s with pendingInput := v } = .next { t with pendingInput := v }

/-- A step changes no cell but those that R54's access table lists as written. Rests on 20_memory.md section 8. -/
def Obligations.StepChangesOnlyTheCellsItWrites : Prop :=
  ∀ s : State, ∃ t, step s = .next t ∧
    ∀ x, Access.w x ∉ s.accesses → t.memRead x = s.memRead x

/-- A step's result depends on memory only through the cells that R54's access table lists as read. Rests on
20_memory.md section 8. -/
def Obligations.StepDependsOnlyOnTheCellsItReads : Prop :=
  ∀ (s : State) (m : Memory),
    (∀ x, Access.r x ∈ s.accesses → State.memRead { s with mem := m } x = s.memRead x) →
    ∃ t u, step s = .next t ∧ step { s with mem := m } = .next u ∧ u = { t with mem := u.mem } ∧
      ∀ x, Access.w x ∈ s.accesses → u.memRead x = t.memRead x

/-- NOP and every undefined opcode advance PC by 1 and change nothing else. Rule R83. -/
def Obligations.NopAndUndefinedOnlyAdvance : Prop :=
  (∀ s : State, exec .nop s = .next { s with pc := s.pc + 1 }) ∧
  (∀ (op : Byte) (s : State), exec (.undef op) s = .next { s with pc := s.pc + 1 }) ∧
  (∀ (m : OpcodeMap) (op : Byte), encode m .nop = [m.nop] ∧ encode m (.undef op) = [op]) ∧
  (∀ s : State, s.Fetches → s.cfg.opcodes.Injective →
    (s.memRead s.pc = s.cfg.opcodes.nop ∨ s.memRead s.pc ∉ s.cfg.opcodes.toList) →
    step s = .next { s with pc := s.pc + 1, steps := s.steps + 1 }) ∧
  ∀ s : State, s.running = true → s.pc + 1 = s.cfg.memLen → ∃ t, exec .nop s = .next t ∧
    t.pc = s.cfg.memLen ∧ step t = .next { t with running := false }

/-- LDA_IMM, LDB_IMM, LDC_IMM, LDD_IMM write imm8 to A, B, C, D, PC + 2, nothing else (flags kept: D4, log entry
5). Rests on 41_load_store.md section 1. -/
def Obligations.ImmediateLoadsWriteTheirRegister : Prop :=
  ∀ (imm : Byte) (s : State),
    exec (.ldaImm imm) s = .next { s with a := imm, pc := s.pc + 2 } ∧
    exec (.ldbImm imm) s = .next { s with b := imm, pc := s.pc + 2 } ∧
    exec (.ldcImm imm) s = .next { s with c := imm, pc := s.pc + 2 } ∧
    exec (.lddImm imm) s = .next { s with d := imm, pc := s.pc + 2 }

/-- STA_ABS stores A at addr16 when it is in range, its own bytes included, changes no other cell, PC + 3. Rule
R94. -/
def Obligations.StaAbsStoresTheAccumulator : Prop :=
  ∀ (addr : Addr16) (s : State), ∃ t, exec (.staAbs addr) s = .next t ∧
    t = { s with mem := t.mem, pc := s.pc + 3 } ∧
    (addr.toNat < s.cfg.memLen → t.memRead addr.toNat = s.a) ∧
    (∀ x, x ≠ addr.toNat → t.memRead x = s.memRead x) ∧
    (s.cfg.memLen ≤ addr.toNat → t.mem = s.mem) ∧
    (s.Fetches → s.cfg.opcodes.Injective → s.memRead s.pc = s.cfg.opcodes.staAbs →
      s.addr16 (s.pc + 1) = addr → ∃ u, step s = .next u ∧
        u = { s with mem := u.mem, pc := s.pc + 3, steps := s.steps + 1 } ∧
        (addr.toNat < s.cfg.memLen → u.memRead addr.toNat = s.a) ∧
        (∀ x, x ≠ addr.toNat → u.memRead x = s.memRead x)) ∧
    ∀ m : OpcodeMap, encode m (.staAbs addr) = [m.staAbs, addr.extractLsb' 0 8, addr.extractLsb' 8 8]

/-- LDA_ABS loads the byte at addr16, 0 when it is out of range, PC + 3, nothing else (flags kept: D4, log entry
5). Rests on 41_load_store.md section 2. -/
def Obligations.LdaAbsLoadsTheByte : Prop :=
  ∀ (addr : Addr16) (s : State), ∃ t, exec (.ldaAbs addr) s = .next t ∧
    t = { s with a := t.a, pc := s.pc + 3 } ∧ SameBytes s t ∧
    (addr.toNat < s.cfg.memLen → t.a = s.mem.byteAt addr.toNat) ∧
    (s.cfg.memLen ≤ addr.toNat → t.a = 0)

/-- LDA_IDX loads the byte at B + C (0 to 510, not reduced), 0 out of range, PC + 1, flags kept (D4, log entry
5). Rests on 41_load_store.md section 3, 20_memory.md section 3. -/
def Obligations.LdaIdxLoadsAtTheNineBitSum : Prop :=
  ∀ s : State, ∃ t, exec .ldaIdx s = .next t ∧
    t = { s with a := t.a, pc := s.pc + 1 } ∧ SameBytes s t ∧
    (s.b.toNat + s.c.toNat < s.cfg.memLen → t.a = s.mem.byteAt (s.b.toNat + s.c.toNat)) ∧
    (s.cfg.memLen ≤ s.b.toNat + s.c.toNat → t.a = 0)

/-- STA_IDX stores A at B + C (0 to 510, not reduced) when in range, its own byte included, changes no other
cell, PC + 1. Rule R97. -/
def Obligations.StaIdxStoresAtTheNineBitSum : Prop :=
  ∀ s : State, ∃ t, exec .staIdx s = .next t ∧
    t = { s with mem := t.mem, pc := s.pc + 1 } ∧
    (s.b.toNat + s.c.toNat < s.cfg.memLen → t.memRead (s.b.toNat + s.c.toNat) = s.a) ∧
    (∀ x, x ≠ s.b.toNat + s.c.toNat → t.memRead x = s.memRead x) ∧
    (s.cfg.memLen ≤ s.b.toNat + s.c.toNat → t.mem = s.mem) ∧
    (s.Fetches → s.cfg.opcodes.Injective → s.memRead s.pc = s.cfg.opcodes.staIdx → ∃ u, step s = .next u ∧
      u = { s with mem := u.mem, pc := s.pc + 1, steps := s.steps + 1 } ∧
      (s.b.toNat + s.c.toNat < s.cfg.memLen → u.memRead (s.b.toNat + s.c.toNat) = s.a) ∧
      (∀ x, x ≠ s.b.toNat + s.c.toNat → u.memRead x = s.memRead x)) ∧
    ∀ m : OpcodeMap, encode m .staIdx = [m.staIdx]

/-- ADD: A = (A + B) mod 256, CF = (A + B > 255) and ZF = (result = 0) from the old operands, PC + 1, nothing
else. Rule R100. -/
def Obligations.AddWrapsAndCarriesOut : Prop :=
  ∀ s : State, ∃ t, exec .add s = .next t ∧
    t = { s with a := t.a, zf := t.zf, cf := t.cf, pc := s.pc + 1 } ∧ SameBytes s t ∧
    t.a.toNat = (s.a.toNat + s.b.toNat) % 256 ∧
    (t.cf = true ↔ s.a.toNat + s.b.toNat > 255) ∧
    (t.zf = true ↔ (s.a.toNat + s.b.toNat) % 256 = 0) ∧
    ∀ m : OpcodeMap, encode m .add = [m.add]

/-- SUB: A = (A - B) mod 256, CF = (A - B < 0) and ZF = (A = B) from the old operands, PC + 1, nothing else.
Rule R101. -/
def Obligations.SubWrapsAndBorrows : Prop :=
  ∀ s : State, ∃ t, exec .sub s = .next t ∧
    t = { s with a := t.a, zf := t.zf, cf := t.cf, pc := s.pc + 1 } ∧ SameBytes s t ∧
    (t.a.toNat : Int) = ((s.a.toNat : Int) - s.b.toNat) % 256 ∧
    (t.cf = true ↔ (s.a.toNat : Int) - s.b.toNat < 0) ∧
    (t.zf = true ↔ s.a.toNat = s.b.toNat) ∧ (t.zf = true ↔ t.a.toNat = 0) ∧
    ¬ (t.zf = true ∧ t.cf = true) ∧
    ∀ m : OpcodeMap, encode m .sub = [m.sub]

/-- AND and OR combine A with B bit by bit, ZF from the new A, CF kept, PC + 1, nothing else. Rule R102, R103. -/
def Obligations.AndOrCombineBitwise : Prop :=
  (∀ s : State, ∃ t, exec .and s = .next t ∧ t = { s with a := t.a, zf := t.zf, pc := s.pc + 1 } ∧ SameBytes s t ∧
    (∀ k < 8, t.a.getLsbD k = (s.a.getLsbD k && s.b.getLsbD k)) ∧ (t.zf = true ↔ t.a.toNat = 0)) ∧
  (∀ s : State, ∃ t, exec .or s = .next t ∧ t = { s with a := t.a, zf := t.zf, pc := s.pc + 1 } ∧ SameBytes s t ∧
    (∀ k < 8, t.a.getLsbD k = (s.a.getLsbD k || s.b.getLsbD k)) ∧ (t.zf = true ↔ t.a.toNat = 0) ∧
    (t.zf = true ↔ s.a.toNat = 0 ∧ s.b.toNat = 0)) ∧
  ∀ m : OpcodeMap, encode m .and = [m.and] ∧ encode m .or = [m.or]

/-- INC and DEC add and subtract 1 modulo 256, ZF from the new A, CF kept also on the wrap, PC + 1, nothing
else. Rule R104, R105. -/
def Obligations.IncDecWrapAndKeepCarry : Prop :=
  (∀ s : State, ∃ t, exec .inc s = .next t ∧ t = { s with a := t.a, zf := t.zf, pc := s.pc + 1 } ∧ SameBytes s t ∧
    t.a.toNat = (s.a.toNat + 1) % 256 ∧ (t.zf = true ↔ t.a.toNat = 0) ∧ (t.zf = true ↔ s.a.toNat = 255)) ∧
  (∀ s : State, ∃ t, exec .dec s = .next t ∧ t = { s with a := t.a, zf := t.zf, pc := s.pc + 1 } ∧ SameBytes s t ∧
    (t.a.toNat : Int) = ((s.a.toNat : Int) - 1) % 256 ∧ (t.zf = true ↔ t.a.toNat = 0) ∧
    (t.zf = true ↔ s.a.toNat = 1)) ∧
  ∀ m : OpcodeMap, encode m .inc = [m.inc] ∧ encode m .dec = [m.dec]

/-- CMP sets ZF exactly when A = B and changes nothing else but PC + 1. Rule R106. -/
def Obligations.CmpComparesForEquality : Prop :=
  ∀ s : State, ∃ t, exec .cmp s = .next t ∧
    t = { s with zf := t.zf, pc := s.pc + 1 } ∧ SameBytes s t ∧
    (t.zf = true ↔ s.a.toNat = s.b.toNat) ∧
    ∀ m : OpcodeMap, encode m .cmp = [m.cmp]

/-- JMP sets PC to addr16, in range or not, and changes nothing else. Rule R110. -/
def Obligations.JmpTakesTheAbsoluteAddress : Prop :=
  ∀ (addr : Addr16) (s : State), exec (.jmp addr) s = .next { s with pc := addr.toNat } ∧
    (addr.toNat = s.pc → exec (.jmp addr) s = .next s) ∧
    (s.running = true → s.cfg.memLen ≤ addr.toNat →
      step { s with pc := addr.toNat } = .next { s with pc := addr.toNat, running := false }) ∧
    (s.Fetches → s.cfg.opcodes.Injective → s.memRead s.pc = s.cfg.opcodes.jmp →
      step s = .next { s with pc := (s.addr16 (s.pc + 1)).toNat, steps := s.steps + 1 }) ∧
    ∀ m : OpcodeMap, encode m (.jmp addr) = [m.jmp, addr.extractLsb' 0 8, addr.extractLsb' 8 8]

/-- JZ jumps to addr16 when ZF = 1 and JNZ when ZF = 0, else PC + 3; nothing else changes. Rule R111, R112. -/
def Obligations.ConditionalJumpsFollowTheZeroFlag : Prop :=
  ∀ (addr : Addr16) (s : State),
    (s.zf = true → exec (.jz addr) s = .next { s with pc := addr.toNat } ∧
      exec (.jnz addr) s = .next { s with pc := s.pc + 3 }) ∧
    (s.zf = false → exec (.jz addr) s = .next { s with pc := s.pc + 3 } ∧
      exec (.jnz addr) s = .next { s with pc := addr.toNat }) ∧
    (∀ cfg, (State.constructed cfg).zf = false) ∧
    ∀ m : OpcodeMap,
      encode m (.jz addr) = [m.jz, addr.extractLsb' 0 8, addr.extractLsb' 8 8] ∧
      encode m (.jnz addr) = [m.jnz, addr.extractLsb' 0 8, addr.extractLsb' 8 8]

/-- CALL pushes PC + 3 (modulo 65536: D7, log entry 9), low byte at SP, high byte one below, SP - 2, and jumps.
Rests on 43_control.md section 2, 20_memory.md section 4. -/
def Obligations.CallPushesTheReturnAddress : Prop :=
  ∀ (addr : Addr16) (s : State), ∃ t, exec (.call addr) s = .next t ∧
    t = { s with pc := addr.toNat, sp := t.sp, mem := t.mem } ∧
    t.sp.toNat = (s.sp.toNat + 254) % 256 ∧
    (t.memRead s.sp.toNat).toNat = (s.pc + 3) % 65536 % 256 ∧
    (t.memRead ((s.sp.toNat + 255) % 256)).toNat = (s.pc + 3) % 65536 / 256 ∧
    ∀ x, x ≠ s.sp.toNat → x ≠ (s.sp.toNat + 255) % 256 → t.memRead x = s.memRead x

/-- RET takes PC from the two cells above SP, high byte first, SP + 2 modulo 256, memory and all else unchanged.
Rule R114. -/
def Obligations.RetPopsTheReturnAddress : Prop :=
  ∀ s : State, ∃ t, exec .ret s = .next t ∧
    t = { s with pc := t.pc, sp := t.sp } ∧ SameBytes s t ∧
    t.pc = (s.memRead ((s.sp.toNat + 1) % 256)).toNat * 256 +
      (s.memRead ((s.sp.toNat + 2) % 256)).toNat ∧
    t.sp.toNat = (s.sp.toNat + 2) % 256 ∧
    (s.running = true → s.cfg.memLen ≤ t.pc → step t = .next { t with running := false }) ∧
    ∀ m : OpcodeMap, encode m .ret = [m.ret]

/-- MOV_XY copies Y into X, PC + 1, nothing else (direction: D2, log entry 4; no flag, also when A gets 0: D4,
log entry 5). Rests on 44_mov.md sections 1 and 2. -/
def Obligations.MovCopiesOneRegister : Prop :=
  ∀ s : State,
    exec .movBA s = .next { s with b := s.a, pc := s.pc + 1 } ∧
    exec .movAB s = .next { s with a := s.b, pc := s.pc + 1 } ∧
    exec .movCA s = .next { s with c := s.a, pc := s.pc + 1 } ∧
    exec .movAC s = .next { s with a := s.c, pc := s.pc + 1 } ∧
    exec .movDA s = .next { s with d := s.a, pc := s.pc + 1 } ∧
    exec .movAD s = .next { s with a := s.d, pc := s.pc + 1 }

/-- INP moves pending_input into A and clears it; a second INP gives 0; the last injection before it wins (D11).
Rests on 45_system.md section 1, 10_state.md section 5. -/
def Obligations.InpConsumesThePendingInput : Prop :=
  (∀ s : State, ∃ t, exec .inp s = .next t ∧
    t = { s with a := s.pendingInput, pendingInput := 0, pc := s.pc + 1 } ∧
    exec .inp t = .next { t with a := 0, pc := t.pc + 1 }) ∧
  ∀ (s : State) (v w : Byte),
    exec .inp ((s.setPendingInput v).setPendingInput w) =
      .next { s with a := w, pendingInput := 0, pc := s.pc + 1 }

/-- HALT clears running and changes nothing else; later steps change nothing (PC kept: D3, log entry 10). Rests
on 45_system.md section 1, 60_exceptions.md section 9. -/
def Obligations.HaltStopsAndKeepsEverythingElse : Prop :=
  ∀ s : State, ∃ t, exec .halt s = .next t ∧ t = { s with running := false } ∧ step t = .next t

/-- A read beyond memory is 0, a write beyond memory changes nothing, a write in range changes its own cell
only. Rule R31, R32. -/
def Obligations.ReadsAndWritesAreBoundsChecked : Prop :=
  ∀ (s : State) (addr : Nat) (v : Byte),
    (addr < s.cfg.memLen → s.memRead addr = s.mem.byteAt addr) ∧
    (s.cfg.memLen ≤ addr → s.memRead addr = 0) ∧
    (addr < s.cfg.memLen → (s.memWrite addr v).mem.byteAt addr = v ∧
      (∀ x, x ≠ addr → (s.memWrite addr v).mem.byteAt x = s.mem.byteAt x) ∧
      s.memWrite addr v = { s with mem := (s.memWrite addr v).mem }) ∧
    (s.cfg.memLen ≤ addr → s.memWrite addr v = s)

/-- Addr16(p) is memory[p] | (memory[p+1] << 8), a byte beyond memory contributing 0. Rule R36. -/
def Obligations.OperandAddressIsLittleEndian : Prop :=
  (∀ (s : State) (p : Nat),
    (s.addr16 p).toNat = (s.memRead p).toNat ||| ((s.memRead (p + 1)).toNat <<< 8) ∧
    (s.addr16 p).toNat = (s.memRead (p + 1)).toNat * 256 + (s.memRead p).toNat) ∧
  ∀ (s : State) (addr : Addr16),
    (s.fetch = .jmp addr ∨ s.fetch = .jz addr ∨ s.fetch = .jnz addr ∨ s.fetch = .call addr ∨
      s.fetch = .staAbs addr ∨ s.fetch = .ldaAbs addr) → addr = s.addr16 (s.pc + 1)

/-- An opcode in the last one or two bytes of memory executes with the missing operand bytes 0 (LDA_IMM keeps
flags: D4, log entry 5). Rests on 30_encoding.md section 2. -/
def Obligations.OperandsBeyondMemoryReadZero : Prop :=
  ∀ s : State,
    (s.pc + 1 = s.cfg.memLen → s.imm8 = 0 ∧ s.addr16 (s.pc + 1) = 0) ∧
    (s.pc + 2 = s.cfg.memLen → (s.addr16 (s.pc + 1)).toNat = (s.memRead (s.cfg.memLen - 1)).toNat) ∧
    (s.running = true → s.cfg.opcodes.Injective →
      (∀ k : Mnemonic, s.memRead s.pc = s.cfg.opcodes.byteOf k →
        (s.pc + 1 = s.cfg.memLen → step s = exec (k.instr 0 0) { s with steps := s.steps + 1 }) ∧
        (s.pc + 2 = s.cfg.memLen → step s = exec (k.instr (s.memRead (s.cfg.memLen - 1))
          ((s.memRead (s.cfg.memLen - 1)).setWidth 16)) { s with steps := s.steps + 1 })) ∧
      (s.pc + 1 = s.cfg.memLen → s.memRead s.pc = s.cfg.opcodes.ldaImm →
        step s = .next { s with a := 0, pc := s.cfg.memLen + 1, steps := s.steps + 1 })) ∧
    [Mnemonic.ldaImm, .ldbImm, .ldcImm, .lddImm, .staAbs, .ldaAbs, .jmp, .jz, .jnz, .call].map (·.instr 0 0) =
      [.ldaImm 0, .ldbImm 0, .ldcImm 0, .lddImm 0, .staAbs 0, .ldaAbs 0, .jmp 0, .jz 0, .jnz 0, .call 0]

/-- Pop16 after Push16 gives the value back modulo 65536 (D7, log entry 9) and restores SP, for every value and
every SP. Rests on 20_memory.md section 4. -/
def Obligations.PopUndoesPush : Prop :=
  ∀ (s : State) (v : Nat),
    (s.push16 v).pop16.1.toNat = v % 65536 ∧ (s.push16 v).pop16.2.sp = s.sp ∧
    ((s.push16 v).memRead s.sp.toNat).toNat = v % 65536 % 256 ∧
    ((s.push16 v).memRead ((s.sp.toNat + 255) % 256)).toNat = v % 65536 / 256 ∧
    s.push16 v = { s with sp := (s.push16 v).sp, mem := (s.push16 v).mem } ∧
    (s.push16 v).sp.toNat = (s.sp.toNat + 254) % 256

/-- RET after CALL at P resumes at P + 3 whenever SP and the two stack cells are as the CALL left them. Rests on
43_control.md section 2, 95_test_vectors.md S8. -/
def Obligations.CallThenRetResumesAfterTheCall : Prop :=
  ∀ (s t u : State) (addr : Addr16), exec (.call addr) s = .next t → s.pc + 3 ≤ 0xFFFF →
    u.sp = t.sp → u.memRead s.sp.toNat = t.memRead s.sp.toNat →
    u.memRead (s.sp - 1).toNat = t.memRead (s.sp - 1).toNat →
    ∃ v, exec .ret u = .next v ∧ v.pc = s.pc + 3 ∧ v.sp = s.sp

/-- 128 nested CALLs fill the stack page with return addresses; the 129th overwrites both bytes of the first
(D7, log entry 9). Rests on 20_memory.md section 4. -/
def Obligations.NestedCallsFillTheStackPage : Prop :=
  ∀ (s t : Nat → State) (addr : Nat → Addr16),
    (∀ n, exec (.call (addr n)) (s n) = .next (t n)) →
    (∀ n, (s (n + 1)).sp = (t n).sp ∧ ∀ x < 256, (s (n + 1)).memRead x = (t n).memRead x) →
    (∀ n, (s n).sp.toNat = ((s 0).sp.toNat + 254 * n) % 256) ∧
    (∀ k < 128,
      ((t 127).memRead (((s 0).sp.toNat + 254 * k) % 256)).toNat = ((s k).pc + 3) % 65536 % 256 ∧
      ((t 127).memRead (((s 0).sp.toNat + 254 * k + 255) % 256)).toNat = ((s k).pc + 3) % 65536 / 256) ∧
    (∀ x < 256, ∃ k < 128, x = ((s 0).sp.toNat + 254 * k) % 256 ∨ x = ((s 0).sp.toNat + 254 * k + 255) % 256) ∧
    ((t 128).memRead (s 0).sp.toNat).toNat = ((s 128).pc + 3) % 65536 % 256 ∧
    ((t 128).memRead (((s 0).sp.toNat + 255) % 256)).toNat = ((s 128).pc + 3) % 65536 / 256

/-- A jump or call to an address beyond memory completes; the next step stops without a fetch (CALL operand
first: D9, log entry 8). Rests on 43_control.md section 1. -/
def Obligations.TransferBeyondMemoryStopsTheNextStep : Prop :=
  ∀ (s : State) (addr : Addr16), s.Fetches → s.cfg.memLen ≤ addr.toNat →
    (s.fetch = .jmp addr ∨ s.fetch = .call addr ∨ (s.fetch = .jz addr ∧ s.zf = true) ∨
      (s.fetch = .jnz addr ∧ s.zf = false)) →
    ∃ t, step s = .next t ∧ t.pc = addr.toNat ∧ t.running = true ∧
      step t = .next { t with running := false }

/-- peek and poke mirror read and write: a poke in range sets its cell alone, a poke beyond memory changes
nothing. Rule R51. -/
def Obligations.PokeWritesOneCell : Prop :=
  ∀ (s : State) (addr : Nat) (v : Byte),
    hostReply (.peek addr) s = .byte (s.memRead addr) ∧ hostMove (.peek addr) s = .next s ∧
    (s.cfg.memLen ≤ addr → hostReply (.peek addr) s = .byte 0) ∧
    ∃ t, hostMove (.poke addr v) s = .next t ∧ t = { s with mem := t.mem } ∧
      (addr < s.cfg.memLen → t.peek addr = v) ∧ (∀ x, x ≠ addr → t.peek x = s.peek x) ∧
      (s.cfg.memLen ≤ addr → t = s)

/-- load_program puts byte i at start + i when that is in range, drops the rest, and changes no register. Rests
on 20_memory.md section 7. -/
def Obligations.LoadProgramCopiesWhatFits : Prop :=
  ∀ (s : State) (bytes : List Byte) (start : Nat), ∃ t,
    hostMove (.loadProgram bytes start) s = .next t ∧ t = { s with mem := t.mem } ∧
    (∀ k (h : k < bytes.length), start + k < s.cfg.memLen → t.memRead (start + k) = bytes[k]) ∧
    ∀ x, (x < start ∨ start + bytes.length ≤ x) → t.memRead x = s.memRead x

/-- Score and framebuffer cells hold any byte, read as last written, and have no side effect. Rests on
20_memory.md section 2, 60_exceptions.md section 6. -/
def Obligations.DisplayAndScoreCellsArePlainMemory : Prop :=
  ∀ (s : State) (addr : Nat) (v : Byte), s.cfg.wf →
    (addr = s.cfg.scoreAddr ∨ addr = s.cfg.highScoreAddr ∨ regionOf s.cfg addr = .framebuffer) →
    (s.poke addr v).peek addr = v ∧ s.poke addr v = { s with mem := (s.poke addr v).mem } ∧
    (∀ x, x ≠ addr → (s.poke addr v).peek x = s.peek x) ∧
    ∃ t, exec (.staAbs (BitVec.ofNat 16 addr)) s = .next t ∧ t.memRead addr = s.a ∧
      (∀ x, x ≠ addr → t.memRead x = s.memRead x) ∧ t = { s with mem := t.mem, pc := s.pc + 3 }

/-- Construction leaves every register 0, SP = STACK_TOP, memory 0, running = 1 (running, input, steps: D8, log
entry 7). Rests on 10_state.md section 8, 70_reset_and_hazards.md section 1. -/
def Obligations.ResetLeavesTheStatedValues : Prop :=
  (∀ cfg : Config, let s := State.constructed cfg
    s.cfg = cfg ∧ s.a = 0 ∧ s.b = 0 ∧ s.c = 0 ∧ s.d = 0 ∧ s.pc = 0 ∧ s.sp = cfg.stackTop ∧ s.zf = false ∧
    s.cf = false ∧ s.running = true ∧ s.pendingInput = 0 ∧ s.steps = 0 ∧ ∀ x, s.memRead x = 0) ∧
  (∀ (s : State) (w h : Nat),
    let cfg := { s.cfg with fbWidth := w, fbHeight := h }
    (cfg.wf → hostMove (.construct w h) s = .next (State.constructed cfg)) ∧
    (¬ cfg.wf → hostMove (.construct w h) s = .refused .configuration)) ∧
  State.reset = State.constructed Config.ref

/-- With NOP = 0 (D1, log entry 3) a newly built engine (D8, log entry 7) executes MEM_LEN NOPs, and the step
after that stops it. Rests on 40_step_and_nop.md section 2, 95_test_vectors.md V-STEP row 8. -/
def Obligations.EmptyMemorySlidesToTheEnd : Prop :=
  ∀ (cfg : Config) (s : State), cfg.opcodes.Injective → cfg.opcodes.nop = 0 → s = State.constructed cfg →
    (∀ n ≤ cfg.memLen, Sys2Proof.core.run n s = .next { s with pc := n, steps := n }) ∧
    Sys2Proof.core.run (cfg.memLen + 1) s =
      .next { s with pc := cfg.memLen, steps := cfg.memLen, running := false }

/-- After 128 pushes SP is back where it was, so the 129th overwrites both bytes of the first: no overflow check
(D7, log entry 9). Rests on 20_memory.md section 4. -/
def Obligations.PushesWrapTheStackPage : Prop :=
  ∀ (s : State) (vs : List Nat) (v : Nat), vs.length = 128 →
    (vs.foldl State.push16 s).sp = s.sp ∧
    (((vs.foldl State.push16 s).push16 v).memRead s.sp.toNat).toNat = v % 65536 % 256 ∧
    (((vs.foldl State.push16 s).push16 v).memRead ((s.sp.toNat + 255) % 256)).toNat = v % 65536 / 256
end

