-- ==== Sys2Proof/Laws/Decode.lean ====
section
/-! SUPPORT. The laws of the opcode map and of the two bytes of an address, from which the statements about
decoding follow. -/

namespace Sys2Proof

theorem toNat_lowByte (v : Addr16) : (lowByte v).toNat = v.toNat % 256 := by
  simp [lowByte]

theorem toNat_highByte (v : Addr16) : (highByte v).toNat = v.toNat / 256 := by
  simp [highByte, Nat.shiftRight_eq_div_pow]; omega

theorem toNat_joinBytes (hi lo : Byte) : (joinBytes hi lo).toNat = hi.toNat * 256 + lo.toNat := by
  simp only [joinBytes, BitVec.toNat_append]
  rw [← Nat.shiftLeft_add_eq_or_of_lt lo.isLt, Nat.shiftLeft_eq]

@[simp] theorem joinBytes_high_low (v : Addr16) : joinBytes (highByte v) (lowByte v) = v := by
  apply BitVec.eq_of_toNat_eq
  rw [toNat_joinBytes, toNat_lowByte, toNat_highByte]; omega

@[simp] theorem lowByte_joinBytes (hi lo : Byte) : lowByte (joinBytes hi lo) = lo := by
  apply BitVec.eq_of_toNat_eq
  rw [toNat_lowByte, toNat_joinBytes]; omega

@[simp] theorem highByte_joinBytes (hi lo : Byte) : highByte (joinBytes hi lo) = hi := by
  apply BitVec.eq_of_toNat_eq
  rw [toNat_highByte, toNat_joinBytes]; omega

theorem Mnemonic.mem_all (k : Mnemonic) : k ∈ Mnemonic.all := by cases k <;> decide

/-- The map's bytes, listed by field and by mnemonic, are the same list. -/
theorem OpcodeMap.toList_eq_map (m : OpcodeMap) : m.toList = Mnemonic.all.map m.byteOf := rfl

theorem OpcodeMap.byteOf_mem (m : OpcodeMap) (k : Mnemonic) : m.byteOf k ∈ m.toList :=
  m.toList_eq_map ▸ List.mem_map_of_mem (Mnemonic.mem_all k)

/-- R66: an injective map gives different mnemonics different bytes. -/
theorem OpcodeMap.byteOf_inj {m : OpcodeMap} (h : m.Injective) {k l : Mnemonic}
    (e : m.byteOf k = m.byteOf l) : k = l :=
  List.inj_on_of_nodup_map (m.toList_eq_map ▸ h) (Mnemonic.mem_all k) (Mnemonic.mem_all l) e

/-- Reading the map backwards at an assigned byte gives its mnemonic. -/
theorem OpcodeMap.lookup_byteOf {m : OpcodeMap} (h : m.Injective) (k : Mnemonic) :
    m.lookup (m.byteOf k) = some k := by
  obtain ⟨l, hl⟩ := Option.isSome_iff_exists.1 <|
    (List.find?_isSome (xs := Mnemonic.all) (p := fun l => m.byteOf l == m.byteOf k)).2
      ⟨k, Mnemonic.mem_all k, by simp⟩
  have : m.byteOf l = m.byteOf k := by simpa using List.find?_some hl
  rw [OpcodeMap.lookup, hl, OpcodeMap.byteOf_inj h this]

/-- What a mnemonic found in the map says of the byte. -/
theorem OpcodeMap.byteOf_of_lookup {m : OpcodeMap} {b : Byte} {k : Mnemonic} (h : m.lookup b = some k) :
    m.byteOf k = b := by
  simpa using List.find?_some h

/-- R67: a byte has no mnemonic exactly when it is none of the 29. -/
theorem OpcodeMap.lookup_eq_none {m : OpcodeMap} {b : Byte} : m.lookup b = none ↔ b ∉ m.toList := by
  rw [OpcodeMap.lookup, List.find?_eq_none, m.toList_eq_map]
  simp

/-! ## Decoding and encoding by format -/

/-- The operand bytes of each format (R60), low byte before high. -/
def operandBytes (f : Format) (imm : Byte) (addr : Addr16) : List Byte :=
  match f with
  | .f1 => []
  | .f2 => [imm]
  | .f3 => [lowByte addr, highByte addr]

theorem length_operandBytes (f : Format) (imm : Byte) (addr : Addr16) :
    (operandBytes f imm addr).length + 1 = f.length := by
  cases f <;> rfl

/-- The encoding of a mnemonic with its operand: the opcode byte and the operand bytes of its format. -/
theorem encode_instr (m : OpcodeMap) (k : Mnemonic) (imm : Byte) (addr : Addr16) :
    encode m (k.instr imm addr) = m.byteOf k :: operandBytes k.format imm addr := by
  cases k <;> rfl

/-- Every instruction is an undefined opcode or a mnemonic with its operand. -/
theorem Instr.eq_instr (i : Instr) : (∃ op, i = .undef op) ∨ ∃ k imm addr, i = Mnemonic.instr k imm addr := by
  cases i with
  | undef op => exact .inl ⟨op, rfl⟩
  | ldaImm imm => exact .inr ⟨.ldaImm, imm, 0, rfl⟩
  | ldbImm imm => exact .inr ⟨.ldbImm, imm, 0, rfl⟩
  | ldcImm imm => exact .inr ⟨.ldcImm, imm, 0, rfl⟩
  | lddImm imm => exact .inr ⟨.lddImm, imm, 0, rfl⟩
  | staAbs addr => exact .inr ⟨.staAbs, 0, addr, rfl⟩
  | ldaAbs addr => exact .inr ⟨.ldaAbs, 0, addr, rfl⟩
  | jmp addr => exact .inr ⟨.jmp, 0, addr, rfl⟩
  | jz addr => exact .inr ⟨.jz, 0, addr, rfl⟩
  | jnz addr => exact .inr ⟨.jnz, 0, addr, rfl⟩
  | call addr => exact .inr ⟨.call, 0, addr, rfl⟩
  | nop => exact .inr ⟨.nop, 0, 0, rfl⟩
  | ldaIdx => exact .inr ⟨.ldaIdx, 0, 0, rfl⟩
  | staIdx => exact .inr ⟨.staIdx, 0, 0, rfl⟩
  | add => exact .inr ⟨.add, 0, 0, rfl⟩
  | sub => exact .inr ⟨.sub, 0, 0, rfl⟩
  | and => exact .inr ⟨.and, 0, 0, rfl⟩
  | or => exact .inr ⟨.or, 0, 0, rfl⟩
  | inc => exact .inr ⟨.inc, 0, 0, rfl⟩
  | dec => exact .inr ⟨.dec, 0, 0, rfl⟩
  | cmp => exact .inr ⟨.cmp, 0, 0, rfl⟩
  | ret => exact .inr ⟨.ret, 0, 0, rfl⟩
  | movBA => exact .inr ⟨.movBA, 0, 0, rfl⟩
  | movAB => exact .inr ⟨.movAB, 0, 0, rfl⟩
  | movCA => exact .inr ⟨.movCA, 0, 0, rfl⟩
  | movAC => exact .inr ⟨.movAC, 0, 0, rfl⟩
  | movDA => exact .inr ⟨.movDA, 0, 0, rfl⟩
  | movAD => exact .inr ⟨.movAD, 0, 0, rfl⟩
  | inp => exact .inr ⟨.inp, 0, 0, rfl⟩
  | halt => exact .inr ⟨.halt, 0, 0, rfl⟩

/-- A mnemonic's instruction uses only the operand of its format. -/
theorem Mnemonic.instr_f1 {k : Mnemonic} (h : k.format = .f1) (x y : Byte) (p q : Addr16) :
    k.instr x p = k.instr y q := by
  cases k <;> simp_all [Mnemonic.format, Mnemonic.instr]

theorem Mnemonic.instr_f2 {k : Mnemonic} (h : k.format = .f2) (x : Byte) (p q : Addr16) :
    k.instr x p = k.instr x q := by
  cases k <;> simp_all [Mnemonic.format, Mnemonic.instr]

theorem Mnemonic.instr_f3 {k : Mnemonic} (h : k.format = .f3) (x y : Byte) (p : Addr16) :
    k.instr x p = k.instr y p := by
  cases k <;> simp_all [Mnemonic.format, Mnemonic.instr]

/-- The mnemonic and the length of a mnemonic's instruction. -/
@[simp] theorem Mnemonic.mnemonic_instr (k : Mnemonic) (imm : Byte) (addr : Addr16) :
    (k.instr imm addr).mnemonic = some k := by
  cases k <;> rfl

@[simp] theorem Mnemonic.length_instr (k : Mnemonic) (imm : Byte) (addr : Addr16) :
    (k.instr imm addr).length = k.format.length := by
  simp [Instr.length]

/-- A mnemonic's instruction is well-formed: operands are unconstrained (R68). -/
@[simp] theorem Mnemonic.wellFormed_instr (m : OpcodeMap) (k : Mnemonic) (imm : Byte) (addr : Addr16) :
    (k.instr imm addr).wellFormed m = true := by
  cases k <;> rfl

/-- The operand decoder reads exactly the operand bytes of the mnemonic's format. -/
theorem decodeOperand_ok {k : Mnemonic} {bytes rest : List Byte} {i : Instr} :
    decodeOperand k bytes = .ok (i, rest) ↔
      ∃ imm addr, i = k.instr imm addr ∧ bytes = operandBytes k.format imm addr ++ rest := by
  unfold decodeOperand
  cases hf : k.format with
  | f1 =>
    simp only [operandBytes, Except.ok.injEq, Prod.mk.injEq, List.nil_append]
    constructor
    · rintro ⟨rfl, rfl⟩; exact ⟨0, 0, rfl, rfl⟩
    · rintro ⟨x, p, rfl, rfl⟩; exact ⟨Mnemonic.instr_f1 hf _ _ _ _, rfl⟩
  | f2 =>
    cases bytes with
    | nil => simp [operandBytes]
    | cons x xs =>
      simp only [operandBytes, Except.ok.injEq, Prod.mk.injEq, List.cons_append, List.nil_append, List.cons.injEq]
      constructor
      · rintro ⟨rfl, rfl⟩; exact ⟨x, 0, rfl, rfl, rfl⟩
      · rintro ⟨x, p, rfl, rfl, rfl⟩; exact ⟨Mnemonic.instr_f2 hf _ _ _, rfl⟩
  | f3 =>
    match bytes with
    | [] => simp [operandBytes]
    | [x] => simp [operandBytes]
    | lo :: hi :: xs =>
      simp only [operandBytes, Except.ok.injEq, Prod.mk.injEq, List.cons_append, List.nil_append, List.cons.injEq]
      constructor
      · rintro ⟨rfl, rfl⟩; exact ⟨0, joinBytes hi lo, rfl, by simp, by simp, rfl⟩
      · rintro ⟨x, p, rfl, rfl, rfl, rfl⟩
        exact ⟨by rw [joinBytes_high_low]; exact Mnemonic.instr_f3 hf _ _ _, rfl⟩

/-- What the decoder accepts: an unassigned byte, or an assigned byte and its operand bytes. -/
theorem decode_cons_ok {m : OpcodeMap} {op : Byte} {bytes rest : List Byte} {i : Instr} :
    decode m (op :: bytes) = .ok (i, rest) ↔
      (m.lookup op = none ∧ i = .undef op ∧ bytes = rest) ∨
      ∃ k imm addr, m.lookup op = some k ∧ i = k.instr imm addr ∧
        bytes = operandBytes k.format imm addr ++ rest := by
  simp only [decode]
  cases h : m.lookup op with
  | none => simp [eq_comm]
  | some k => simp [decodeOperand_ok]

end Sys2Proof
end

