-- ==== Sys2Proof/Laws/Flags.lean ====
section
/-! SUPPORT. When each flag computation answers 1, in numbers (42_alu.md R100 to R108). -/

namespace Sys2Proof.Machine

@[simp] theorem zeroFlag_eq_true (r : Byte) : zeroFlag r = true ↔ r.toNat = 0 := by
  simp [zeroFlag, ← BitVec.toNat_inj]

@[simp] theorem equalFlag_eq_true (x y : Byte) : equalFlag x y = true ↔ x.toNat = y.toNat := by
  simp [equalFlag, BitVec.toNat_inj]

@[simp] theorem addCarry_eq_true (x y : Byte) : addCarry x y = true ↔ x.toNat + y.toNat > 255 := by
  simp [addCarry]

@[simp] theorem subBorrow_eq_true (x y : Byte) : subBorrow x y = true ↔ x.toNat < y.toNat := by
  simp [subBorrow]

end Sys2Proof.Machine
end

