-- ==== Sys2Proof/Laws/State.lean ====
section
/-! SUPPORT. Every field of the state after every named update: what the update writes and what it leaves. -/

namespace Sys2Proof.Machine

variable (s : State)

/-! ## Reading a register -/

@[simp] theorem State.reg_A : s.reg .A = s.a := rfl
@[simp] theorem State.reg_B : s.reg .B = s.b := rfl
@[simp] theorem State.reg_C : s.reg .C = s.c := rfl
@[simp] theorem State.reg_D : s.reg .D = s.d := rfl

/-! ## setReg -/

@[simp] theorem State.setReg_A_cfg (v : Byte) : (s.setReg .A v).cfg = s.cfg := rfl
@[simp] theorem State.setReg_A_a (v : Byte) : (s.setReg .A v).a = v := rfl
@[simp] theorem State.setReg_A_b (v : Byte) : (s.setReg .A v).b = s.b := rfl
@[simp] theorem State.setReg_A_c (v : Byte) : (s.setReg .A v).c = s.c := rfl
@[simp] theorem State.setReg_A_d (v : Byte) : (s.setReg .A v).d = s.d := rfl
@[simp] theorem State.setReg_A_pc (v : Byte) : (s.setReg .A v).pc = s.pc := rfl
@[simp] theorem State.setReg_A_sp (v : Byte) : (s.setReg .A v).sp = s.sp := rfl
@[simp] theorem State.setReg_A_zf (v : Byte) : (s.setReg .A v).zf = s.zf := rfl
@[simp] theorem State.setReg_A_cf (v : Byte) : (s.setReg .A v).cf = s.cf := rfl
@[simp] theorem State.setReg_A_running (v : Byte) : (s.setReg .A v).running = s.running := rfl
@[simp] theorem State.setReg_A_pendingInput (v : Byte) : (s.setReg .A v).pendingInput = s.pendingInput := rfl
@[simp] theorem State.setReg_A_steps (v : Byte) : (s.setReg .A v).steps = s.steps := rfl
@[simp] theorem State.setReg_A_mem (v : Byte) : (s.setReg .A v).mem = s.mem := rfl

@[simp] theorem State.setReg_B_cfg (v : Byte) : (s.setReg .B v).cfg = s.cfg := rfl
@[simp] theorem State.setReg_B_a (v : Byte) : (s.setReg .B v).a = s.a := rfl
@[simp] theorem State.setReg_B_b (v : Byte) : (s.setReg .B v).b = v := rfl
@[simp] theorem State.setReg_B_c (v : Byte) : (s.setReg .B v).c = s.c := rfl
@[simp] theorem State.setReg_B_d (v : Byte) : (s.setReg .B v).d = s.d := rfl
@[simp] theorem State.setReg_B_pc (v : Byte) : (s.setReg .B v).pc = s.pc := rfl
@[simp] theorem State.setReg_B_sp (v : Byte) : (s.setReg .B v).sp = s.sp := rfl
@[simp] theorem State.setReg_B_zf (v : Byte) : (s.setReg .B v).zf = s.zf := rfl
@[simp] theorem State.setReg_B_cf (v : Byte) : (s.setReg .B v).cf = s.cf := rfl
@[simp] theorem State.setReg_B_running (v : Byte) : (s.setReg .B v).running = s.running := rfl
@[simp] theorem State.setReg_B_pendingInput (v : Byte) : (s.setReg .B v).pendingInput = s.pendingInput := rfl
@[simp] theorem State.setReg_B_steps (v : Byte) : (s.setReg .B v).steps = s.steps := rfl
@[simp] theorem State.setReg_B_mem (v : Byte) : (s.setReg .B v).mem = s.mem := rfl

@[simp] theorem State.setReg_C_cfg (v : Byte) : (s.setReg .C v).cfg = s.cfg := rfl
@[simp] theorem State.setReg_C_a (v : Byte) : (s.setReg .C v).a = s.a := rfl
@[simp] theorem State.setReg_C_b (v : Byte) : (s.setReg .C v).b = s.b := rfl
@[simp] theorem State.setReg_C_c (v : Byte) : (s.setReg .C v).c = v := rfl
@[simp] theorem State.setReg_C_d (v : Byte) : (s.setReg .C v).d = s.d := rfl
@[simp] theorem State.setReg_C_pc (v : Byte) : (s.setReg .C v).pc = s.pc := rfl
@[simp] theorem State.setReg_C_sp (v : Byte) : (s.setReg .C v).sp = s.sp := rfl
@[simp] theorem State.setReg_C_zf (v : Byte) : (s.setReg .C v).zf = s.zf := rfl
@[simp] theorem State.setReg_C_cf (v : Byte) : (s.setReg .C v).cf = s.cf := rfl
@[simp] theorem State.setReg_C_running (v : Byte) : (s.setReg .C v).running = s.running := rfl
@[simp] theorem State.setReg_C_pendingInput (v : Byte) : (s.setReg .C v).pendingInput = s.pendingInput := rfl
@[simp] theorem State.setReg_C_steps (v : Byte) : (s.setReg .C v).steps = s.steps := rfl
@[simp] theorem State.setReg_C_mem (v : Byte) : (s.setReg .C v).mem = s.mem := rfl

@[simp] theorem State.setReg_D_cfg (v : Byte) : (s.setReg .D v).cfg = s.cfg := rfl
@[simp] theorem State.setReg_D_a (v : Byte) : (s.setReg .D v).a = s.a := rfl
@[simp] theorem State.setReg_D_b (v : Byte) : (s.setReg .D v).b = s.b := rfl
@[simp] theorem State.setReg_D_c (v : Byte) : (s.setReg .D v).c = s.c := rfl
@[simp] theorem State.setReg_D_d (v : Byte) : (s.setReg .D v).d = v := rfl
@[simp] theorem State.setReg_D_pc (v : Byte) : (s.setReg .D v).pc = s.pc := rfl
@[simp] theorem State.setReg_D_sp (v : Byte) : (s.setReg .D v).sp = s.sp := rfl
@[simp] theorem State.setReg_D_zf (v : Byte) : (s.setReg .D v).zf = s.zf := rfl
@[simp] theorem State.setReg_D_cf (v : Byte) : (s.setReg .D v).cf = s.cf := rfl
@[simp] theorem State.setReg_D_running (v : Byte) : (s.setReg .D v).running = s.running := rfl
@[simp] theorem State.setReg_D_pendingInput (v : Byte) : (s.setReg .D v).pendingInput = s.pendingInput := rfl
@[simp] theorem State.setReg_D_steps (v : Byte) : (s.setReg .D v).steps = s.steps := rfl
@[simp] theorem State.setReg_D_mem (v : Byte) : (s.setReg .D v).mem = s.mem := rfl

@[simp] theorem State.setReg_cfg (r : Reg) (v : Byte) : (s.setReg r v).cfg = s.cfg := by
  cases r <;> rfl
@[simp] theorem State.setReg_pc (r : Reg) (v : Byte) : (s.setReg r v).pc = s.pc := by
  cases r <;> rfl
@[simp] theorem State.setReg_sp (r : Reg) (v : Byte) : (s.setReg r v).sp = s.sp := by
  cases r <;> rfl
@[simp] theorem State.setReg_zf (r : Reg) (v : Byte) : (s.setReg r v).zf = s.zf := by
  cases r <;> rfl
@[simp] theorem State.setReg_cf (r : Reg) (v : Byte) : (s.setReg r v).cf = s.cf := by
  cases r <;> rfl
@[simp] theorem State.setReg_running (r : Reg) (v : Byte) :
    (s.setReg r v).running = s.running := by
  cases r <;> rfl
@[simp] theorem State.setReg_pendingInput (r : Reg) (v : Byte) :
    (s.setReg r v).pendingInput = s.pendingInput := by
  cases r <;> rfl
@[simp] theorem State.setReg_steps (r : Reg) (v : Byte) : (s.setReg r v).steps = s.steps := by
  cases r <;> rfl
@[simp] theorem State.setReg_mem (r : Reg) (v : Byte) : (s.setReg r v).mem = s.mem := by
  cases r <;> rfl
@[simp] theorem State.reg_setReg (r q : Reg) (v : Byte) :
    (s.setReg r v).reg q = if q = r then v else s.reg q := by
  cases r <;> cases q <;> rfl

/-! ## setZero -/

@[simp] theorem State.setZero_cfg (z : Bool) : (s.setZero z).cfg = s.cfg := rfl
@[simp] theorem State.setZero_a (z : Bool) : (s.setZero z).a = s.a := rfl
@[simp] theorem State.setZero_b (z : Bool) : (s.setZero z).b = s.b := rfl
@[simp] theorem State.setZero_c (z : Bool) : (s.setZero z).c = s.c := rfl
@[simp] theorem State.setZero_d (z : Bool) : (s.setZero z).d = s.d := rfl
@[simp] theorem State.setZero_pc (z : Bool) : (s.setZero z).pc = s.pc := rfl
@[simp] theorem State.setZero_sp (z : Bool) : (s.setZero z).sp = s.sp := rfl
@[simp] theorem State.setZero_zf (z : Bool) : (s.setZero z).zf = z := rfl
@[simp] theorem State.setZero_cf (z : Bool) : (s.setZero z).cf = s.cf := rfl
@[simp] theorem State.setZero_running (z : Bool) : (s.setZero z).running = s.running := rfl
@[simp] theorem State.setZero_pendingInput (z : Bool) : (s.setZero z).pendingInput = s.pendingInput := rfl
@[simp] theorem State.setZero_steps (z : Bool) : (s.setZero z).steps = s.steps := rfl
@[simp] theorem State.setZero_mem (z : Bool) : (s.setZero z).mem = s.mem := rfl

/-! ## setCarry -/

@[simp] theorem State.setCarry_cfg (k : Bool) : (s.setCarry k).cfg = s.cfg := rfl
@[simp] theorem State.setCarry_a (k : Bool) : (s.setCarry k).a = s.a := rfl
@[simp] theorem State.setCarry_b (k : Bool) : (s.setCarry k).b = s.b := rfl
@[simp] theorem State.setCarry_c (k : Bool) : (s.setCarry k).c = s.c := rfl
@[simp] theorem State.setCarry_d (k : Bool) : (s.setCarry k).d = s.d := rfl
@[simp] theorem State.setCarry_pc (k : Bool) : (s.setCarry k).pc = s.pc := rfl
@[simp] theorem State.setCarry_sp (k : Bool) : (s.setCarry k).sp = s.sp := rfl
@[simp] theorem State.setCarry_zf (k : Bool) : (s.setCarry k).zf = s.zf := rfl
@[simp] theorem State.setCarry_cf (k : Bool) : (s.setCarry k).cf = k := rfl
@[simp] theorem State.setCarry_running (k : Bool) : (s.setCarry k).running = s.running := rfl
@[simp] theorem State.setCarry_pendingInput (k : Bool) : (s.setCarry k).pendingInput = s.pendingInput := rfl
@[simp] theorem State.setCarry_steps (k : Bool) : (s.setCarry k).steps = s.steps := rfl
@[simp] theorem State.setCarry_mem (k : Bool) : (s.setCarry k).mem = s.mem := rfl

/-! ## advance -/

@[simp] theorem State.advance_cfg (n : Nat) : (s.advance n).cfg = s.cfg := rfl
@[simp] theorem State.advance_a (n : Nat) : (s.advance n).a = s.a := rfl
@[simp] theorem State.advance_b (n : Nat) : (s.advance n).b = s.b := rfl
@[simp] theorem State.advance_c (n : Nat) : (s.advance n).c = s.c := rfl
@[simp] theorem State.advance_d (n : Nat) : (s.advance n).d = s.d := rfl
@[simp] theorem State.advance_pc (n : Nat) : (s.advance n).pc = s.pc + n := rfl
@[simp] theorem State.advance_sp (n : Nat) : (s.advance n).sp = s.sp := rfl
@[simp] theorem State.advance_zf (n : Nat) : (s.advance n).zf = s.zf := rfl
@[simp] theorem State.advance_cf (n : Nat) : (s.advance n).cf = s.cf := rfl
@[simp] theorem State.advance_running (n : Nat) : (s.advance n).running = s.running := rfl
@[simp] theorem State.advance_pendingInput (n : Nat) : (s.advance n).pendingInput = s.pendingInput := rfl
@[simp] theorem State.advance_steps (n : Nat) : (s.advance n).steps = s.steps := rfl
@[simp] theorem State.advance_mem (n : Nat) : (s.advance n).mem = s.mem := rfl

/-! ## jump -/

@[simp] theorem State.jump_cfg (target : Addr16) : (s.jump target).cfg = s.cfg := rfl
@[simp] theorem State.jump_a (target : Addr16) : (s.jump target).a = s.a := rfl
@[simp] theorem State.jump_b (target : Addr16) : (s.jump target).b = s.b := rfl
@[simp] theorem State.jump_c (target : Addr16) : (s.jump target).c = s.c := rfl
@[simp] theorem State.jump_d (target : Addr16) : (s.jump target).d = s.d := rfl
@[simp] theorem State.jump_pc (target : Addr16) : (s.jump target).pc = target.toNat := rfl
@[simp] theorem State.jump_sp (target : Addr16) : (s.jump target).sp = s.sp := rfl
@[simp] theorem State.jump_zf (target : Addr16) : (s.jump target).zf = s.zf := rfl
@[simp] theorem State.jump_cf (target : Addr16) : (s.jump target).cf = s.cf := rfl
@[simp] theorem State.jump_running (target : Addr16) : (s.jump target).running = s.running := rfl
@[simp] theorem State.jump_pendingInput (target : Addr16) : (s.jump target).pendingInput = s.pendingInput := rfl
@[simp] theorem State.jump_steps (target : Addr16) : (s.jump target).steps = s.steps := rfl
@[simp] theorem State.jump_mem (target : Addr16) : (s.jump target).mem = s.mem := rfl

/-! ## countStep -/

@[simp] theorem State.countStep_cfg : s.countStep.cfg = s.cfg := rfl
@[simp] theorem State.countStep_a : s.countStep.a = s.a := rfl
@[simp] theorem State.countStep_b : s.countStep.b = s.b := rfl
@[simp] theorem State.countStep_c : s.countStep.c = s.c := rfl
@[simp] theorem State.countStep_d : s.countStep.d = s.d := rfl
@[simp] theorem State.countStep_pc : s.countStep.pc = s.pc := rfl
@[simp] theorem State.countStep_sp : s.countStep.sp = s.sp := rfl
@[simp] theorem State.countStep_zf : s.countStep.zf = s.zf := rfl
@[simp] theorem State.countStep_cf : s.countStep.cf = s.cf := rfl
@[simp] theorem State.countStep_running : s.countStep.running = s.running := rfl
@[simp] theorem State.countStep_pendingInput : s.countStep.pendingInput = s.pendingInput := rfl
@[simp] theorem State.countStep_steps : s.countStep.steps = s.steps + 1 := rfl
@[simp] theorem State.countStep_mem : s.countStep.mem = s.mem := rfl

/-! ## stop -/

@[simp] theorem State.stop_cfg : s.stop.cfg = s.cfg := rfl
@[simp] theorem State.stop_a : s.stop.a = s.a := rfl
@[simp] theorem State.stop_b : s.stop.b = s.b := rfl
@[simp] theorem State.stop_c : s.stop.c = s.c := rfl
@[simp] theorem State.stop_d : s.stop.d = s.d := rfl
@[simp] theorem State.stop_pc : s.stop.pc = s.pc := rfl
@[simp] theorem State.stop_sp : s.stop.sp = s.sp := rfl
@[simp] theorem State.stop_zf : s.stop.zf = s.zf := rfl
@[simp] theorem State.stop_cf : s.stop.cf = s.cf := rfl
@[simp] theorem State.stop_running : s.stop.running = false := rfl
@[simp] theorem State.stop_pendingInput : s.stop.pendingInput = s.pendingInput := rfl
@[simp] theorem State.stop_steps : s.stop.steps = s.steps := rfl
@[simp] theorem State.stop_mem : s.stop.mem = s.mem := rfl

/-! ## setPending -/

@[simp] theorem State.setPending_cfg (v : Byte) : (s.setPending v).cfg = s.cfg := rfl
@[simp] theorem State.setPending_a (v : Byte) : (s.setPending v).a = s.a := rfl
@[simp] theorem State.setPending_b (v : Byte) : (s.setPending v).b = s.b := rfl
@[simp] theorem State.setPending_c (v : Byte) : (s.setPending v).c = s.c := rfl
@[simp] theorem State.setPending_d (v : Byte) : (s.setPending v).d = s.d := rfl
@[simp] theorem State.setPending_pc (v : Byte) : (s.setPending v).pc = s.pc := rfl
@[simp] theorem State.setPending_sp (v : Byte) : (s.setPending v).sp = s.sp := rfl
@[simp] theorem State.setPending_zf (v : Byte) : (s.setPending v).zf = s.zf := rfl
@[simp] theorem State.setPending_cf (v : Byte) : (s.setPending v).cf = s.cf := rfl
@[simp] theorem State.setPending_running (v : Byte) : (s.setPending v).running = s.running := rfl
@[simp] theorem State.setPending_pendingInput (v : Byte) : (s.setPending v).pendingInput = v := rfl
@[simp] theorem State.setPending_steps (v : Byte) : (s.setPending v).steps = s.steps := rfl
@[simp] theorem State.setPending_mem (v : Byte) : (s.setPending v).mem = s.mem := rfl

/-! ## setSp -/

@[simp] theorem State.setSp_cfg (v : Byte) : (s.setSp v).cfg = s.cfg := rfl
@[simp] theorem State.setSp_a (v : Byte) : (s.setSp v).a = s.a := rfl
@[simp] theorem State.setSp_b (v : Byte) : (s.setSp v).b = s.b := rfl
@[simp] theorem State.setSp_c (v : Byte) : (s.setSp v).c = s.c := rfl
@[simp] theorem State.setSp_d (v : Byte) : (s.setSp v).d = s.d := rfl
@[simp] theorem State.setSp_pc (v : Byte) : (s.setSp v).pc = s.pc := rfl
@[simp] theorem State.setSp_sp (v : Byte) : (s.setSp v).sp = v := rfl
@[simp] theorem State.setSp_zf (v : Byte) : (s.setSp v).zf = s.zf := rfl
@[simp] theorem State.setSp_cf (v : Byte) : (s.setSp v).cf = s.cf := rfl
@[simp] theorem State.setSp_running (v : Byte) : (s.setSp v).running = s.running := rfl
@[simp] theorem State.setSp_pendingInput (v : Byte) : (s.setSp v).pendingInput = s.pendingInput := rfl
@[simp] theorem State.setSp_steps (v : Byte) : (s.setSp v).steps = s.steps := rfl
@[simp] theorem State.setSp_mem (v : Byte) : (s.setSp v).mem = s.mem := rfl

/-! ## memWrite -/

@[simp] theorem State.memWrite_cfg (addr : Nat) (v : Byte) :
    (s.memWrite addr v).cfg = s.cfg := rfl
@[simp] theorem State.memWrite_a (addr : Nat) (v : Byte) :
    (s.memWrite addr v).a = s.a := rfl
@[simp] theorem State.memWrite_b (addr : Nat) (v : Byte) :
    (s.memWrite addr v).b = s.b := rfl
@[simp] theorem State.memWrite_c (addr : Nat) (v : Byte) :
    (s.memWrite addr v).c = s.c := rfl
@[simp] theorem State.memWrite_d (addr : Nat) (v : Byte) :
    (s.memWrite addr v).d = s.d := rfl
@[simp] theorem State.memWrite_pc (addr : Nat) (v : Byte) :
    (s.memWrite addr v).pc = s.pc := rfl
@[simp] theorem State.memWrite_sp (addr : Nat) (v : Byte) :
    (s.memWrite addr v).sp = s.sp := rfl
@[simp] theorem State.memWrite_zf (addr : Nat) (v : Byte) :
    (s.memWrite addr v).zf = s.zf := rfl
@[simp] theorem State.memWrite_cf (addr : Nat) (v : Byte) :
    (s.memWrite addr v).cf = s.cf := rfl
@[simp] theorem State.memWrite_running (addr : Nat) (v : Byte) :
    (s.memWrite addr v).running = s.running := rfl
@[simp] theorem State.memWrite_pendingInput (addr : Nat) (v : Byte) :
    (s.memWrite addr v).pendingInput = s.pendingInput := rfl
@[simp] theorem State.memWrite_steps (addr : Nat) (v : Byte) :
    (s.memWrite addr v).steps = s.steps := rfl

/-! ## push16 and pop16 -/

@[simp] theorem State.push16_cfg (v : Nat) :
    (s.push16 v).cfg = s.cfg := rfl
@[simp] theorem State.push16_a (v : Nat) : (s.push16 v).a = s.a := rfl
@[simp] theorem State.push16_b (v : Nat) : (s.push16 v).b = s.b := rfl
@[simp] theorem State.push16_c (v : Nat) : (s.push16 v).c = s.c := rfl
@[simp] theorem State.push16_d (v : Nat) : (s.push16 v).d = s.d := rfl
@[simp] theorem State.push16_pc (v : Nat) : (s.push16 v).pc = s.pc := rfl
@[simp] theorem State.push16_zf (v : Nat) : (s.push16 v).zf = s.zf := rfl
@[simp] theorem State.push16_cf (v : Nat) : (s.push16 v).cf = s.cf := rfl
@[simp] theorem State.push16_running (v : Nat) :
    (s.push16 v).running = s.running := rfl
@[simp] theorem State.push16_pendingInput (v : Nat) :
    (s.push16 v).pendingInput = s.pendingInput := rfl
@[simp] theorem State.push16_steps (v : Nat) :
    (s.push16 v).steps = s.steps := rfl
@[simp] theorem State.push16_sp (v : Nat) :
    (s.push16 v).sp = s.sp - 1 - 1 := rfl
@[simp] theorem State.pop16_cfg : s.pop16.2.cfg = s.cfg := rfl
@[simp] theorem State.pop16_a : s.pop16.2.a = s.a := rfl
@[simp] theorem State.pop16_b : s.pop16.2.b = s.b := rfl
@[simp] theorem State.pop16_c : s.pop16.2.c = s.c := rfl
@[simp] theorem State.pop16_d : s.pop16.2.d = s.d := rfl
@[simp] theorem State.pop16_pc : s.pop16.2.pc = s.pc := rfl
@[simp] theorem State.pop16_sp : s.pop16.2.sp = s.sp + 1 + 1 := rfl
@[simp] theorem State.pop16_zf : s.pop16.2.zf = s.zf := rfl
@[simp] theorem State.pop16_cf : s.pop16.2.cf = s.cf := rfl
@[simp] theorem State.pop16_running : s.pop16.2.running = s.running := rfl
@[simp] theorem State.pop16_pendingInput : s.pop16.2.pendingInput = s.pendingInput := rfl
@[simp] theorem State.pop16_steps : s.pop16.2.steps = s.steps := rfl
@[simp] theorem State.pop16_mem : s.pop16.2.mem = s.mem := rfl

/-! ## constructed -/

@[simp] theorem State.constructed_cfg (cfg : Config) : (State.constructed cfg).cfg = cfg := rfl
@[simp] theorem State.constructed_a (cfg : Config) : (State.constructed cfg).a = 0 := rfl
@[simp] theorem State.constructed_b (cfg : Config) : (State.constructed cfg).b = 0 := rfl
@[simp] theorem State.constructed_c (cfg : Config) : (State.constructed cfg).c = 0 := rfl
@[simp] theorem State.constructed_d (cfg : Config) : (State.constructed cfg).d = 0 := rfl
@[simp] theorem State.constructed_pc (cfg : Config) : (State.constructed cfg).pc = 0 := rfl
@[simp] theorem State.constructed_sp (cfg : Config) : (State.constructed cfg).sp = cfg.stackTop := rfl
@[simp] theorem State.constructed_zf (cfg : Config) : (State.constructed cfg).zf = false := rfl
@[simp] theorem State.constructed_cf (cfg : Config) : (State.constructed cfg).cf = false := rfl
@[simp] theorem State.constructed_running (cfg : Config) : (State.constructed cfg).running = true := rfl
@[simp] theorem State.constructed_pendingInput (cfg : Config) : (State.constructed cfg).pendingInput = 0 := rfl
@[simp] theorem State.constructed_steps (cfg : Config) : (State.constructed cfg).steps = 0 := rfl
@[simp] theorem State.constructed_mem (cfg : Config) : (State.constructed cfg).mem = [] := rfl

/-! ## The shared tails of the meanings, as one record update each -/

/-- What ADD, SUB, AND, OR, INC and DEC share (R108): A, ZF and PC change and nothing else. -/
theorem State.finishAlu_eq (r : Byte) :
    s.finishAlu r = { s with a := r, zf := r == 0, pc := s.pc + 1 } := rfl

/-- A conditional transfer changes PC and nothing else (R111, R112). -/
theorem State.branch_eq (taken : Bool) (addr : Addr16) :
    s.branch taken addr = { s with pc := if taken then addr.toNat else s.pc + 3 } := rfl

/-- A register copy is the write of one register and PC + 1 (R126). -/
theorem State.copyReg_eq (dst src : Reg) :
    s.copyReg dst src = { s.setReg dst (s.reg src) with pc := s.pc + 1 } := by
  cases dst <;> rfl

end Sys2Proof.Machine
end

