-- ==== Sys2Proof/Laws/Memory.lean ====
section
/-! SUPPORT. The laws of memory: what a write does to every read, that every operation keeps the canonical
form, and that canonical memories with the same bytes are equal; then the same for the state's bounds-checked
access and for the stack. -/

namespace Sys2Proof.Machine

/-! ## The list of cells -/

namespace MemoryLaws

theorem byteAt_erase (m : Memory) (addr x : Nat) :
    (m.erase addr).byteAt x = if x = addr then 0 else m.byteAt x := by
  induction m with
  | nil => simp [Memory.erase, Memory.byteAt]
  | cons cell rest ih =>
    simp only [Memory.erase, List.filter_cons] at ih ⊢
    by_cases h : cell.1 = addr
    · by_cases hx : x = addr <;> simp_all [Memory.byteAt]
      exact fun h' => absurd h'.symm hx
    · by_cases hx : cell.1 = x <;> simp_all [Memory.byteAt]

theorem byteAt_place (addr : Nat) (v : Byte) (m : Memory) (x : Nat) (h : m.byteAt addr = 0)
    (hm : ∀ c ∈ m, c.1 ≠ addr) :
    (Memory.place addr v m).byteAt x = if x = addr then v else m.byteAt x := by
  induction m with
  | nil => simp [Memory.place, Memory.byteAt, eq_comm]
  | cons cell rest ih =>
    have hc : cell.1 ≠ addr := hm cell (by simp)
    simp only [Memory.place]
    split
    · simp [Memory.byteAt, eq_comm]
    · have := ih (by simpa [Memory.byteAt, hc] using h) fun c hc => hm c (by simp [hc])
      by_cases hx : cell.1 = x
      · subst hx; simp [Memory.byteAt, hc]
      · simp [Memory.byteAt, hx, this]

theorem mem_erase {m : Memory} {addr : Nat} {c : Host.Cell} :
    c ∈ m.erase addr ↔ c ∈ m ∧ c.1 ≠ addr := by
  simp [Memory.erase]

theorem mem_place {m : Memory} {addr : Nat} {v : Byte} {c : Host.Cell} :
    c ∈ Memory.place addr v m ↔ c = (addr, v) ∨ c ∈ m := by
  induction m with
  | nil => simp [Memory.place]
  | cons cell rest ih =>
    simp only [Memory.place]
    split
    · simp
    · simp [ih, or_left_comm]

theorem wf_erase {m : Memory} (h : m.wf) (addr : Nat) : (m.erase addr).wf :=
  ⟨h.1.filter _, fun c hc => h.2 c (mem_erase.1 hc).1⟩

theorem pairwise_place {m : Memory} (h : m.Pairwise fun x y => x.1 < y.1) (addr : Nat) (v : Byte)
    (hm : ∀ c ∈ m, c.1 ≠ addr) : (Memory.place addr v m).Pairwise fun x y => x.1 < y.1 := by
  induction m with
  | nil => simp [Memory.place]
  | cons cell rest ih =>
    have hc : cell.1 ≠ addr := hm cell (by simp)
    rw [List.pairwise_cons] at h
    simp only [Memory.place]
    split
    · rename_i hlt
      refine List.pairwise_cons.2 ⟨fun c hcm => ?_, List.pairwise_cons.2 h⟩
      rcases List.mem_cons.1 hcm with rfl | hr
      · exact hlt
      · exact hlt.trans (h.1 c hr)
    · rename_i hge
      refine List.pairwise_cons.2 ⟨fun c hcm => ?_, ih h.2 fun c hc => hm c (by simp [hc])⟩
      rcases mem_place.1 hcm with rfl | hr
      · exact lt_of_le_of_ne (not_lt.1 hge) hc
      · exact h.1 c hr

/-- A write puts its byte at its address and changes no other. -/
theorem byteAt_put (m : Memory) (addr : Nat) (v : Byte) (x : Nat) :
    (m.put addr v).byteAt x = if x = addr then v else m.byteAt x := by
  unfold Memory.put
  split
  · rename_i h; simp [byteAt_erase, h]
  · rw [byteAt_place]
    · simp only [byteAt_erase]; split <;> rfl
    · simp [byteAt_erase]
    · exact fun c hc => (mem_erase.1 hc).2

/-- A write keeps the canonical form. -/
theorem wf_put {m : Memory} (h : m.wf) (addr : Nat) (v : Byte) : (m.put addr v).wf := by
  unfold Memory.put
  split
  · exact wf_erase h addr
  · rename_i hv
    refine ⟨pairwise_place (wf_erase h addr).1 addr v fun c hc => (mem_erase.1 hc).2, fun c hc => ?_⟩
    rcases mem_place.1 hc with rfl | hr
    · exact hv
    · exact (wf_erase h addr).2 c hr

/-- A write lists no address but its own and those listed before. -/
theorem mem_put {m : Memory} {addr : Nat} {v : Byte} {c : Host.Cell} (h : c ∈ m.put addr v) :
    c.1 = addr ∨ c ∈ m := by
  unfold Memory.put at h
  split at h
  · exact .inr (mem_erase.1 h).1
  · rcases mem_place.1 h with rfl | hr
    · exact .inl rfl
    · exact .inr (mem_erase.1 hr).1

theorem byteAt_of_lt {m : Memory} {x : Nat} (h : ∀ c ∈ m, x < c.1) : m.byteAt x = 0 := by
  induction m with
  | nil => rfl
  | cons cell rest ih =>
    have : cell.1 ≠ x := (h cell (by simp)).ne'
    simp [Memory.byteAt, this, ih fun c hc => h c (by simp [hc])]

/-- Canonical memories that hold the same bytes are the same data. -/
theorem ext {m n : Memory} (hm : m.wf) (hn : n.wf) (h : ∀ x, m.byteAt x = n.byteAt x) : m = n := by
  induction m generalizing n with
  | nil =>
    cases n with
    | nil => rfl
    | cons c rest =>
      exact absurd (by simpa [Memory.byteAt] using (h c.1).symm) (hn.2 c (by simp))
  | cons c rest ih =>
    obtain ⟨hp, hz⟩ := hm
    rw [List.pairwise_cons] at hp
    cases n with
    | nil => exact absurd (by simpa [Memory.byteAt] using h c.1) (hz c (by simp))
    | cons e tail =>
      obtain ⟨hq, hy⟩ := hn
      rw [List.pairwise_cons] at hq
      have hc0 : c.2 ≠ 0 := hz c (by simp)
      have he0 : e.2 ≠ 0 := hy e (by simp)
      have hce : c.1 = e.1 := by
        rcases lt_trichotomy c.1 e.1 with hlt | heq | hgt
        · refine absurd ?_ hc0
          have := h c.1
          rw [byteAt_of_lt (m := e :: tail) fun x hx => ?_] at this
          · simpa [Memory.byteAt] using this
          · rcases List.mem_cons.1 hx with rfl | hr
            · exact hlt
            · exact hlt.trans (hq.1 x hr)
        · exact heq
        · refine absurd ?_ he0
          have := h e.1
          rw [byteAt_of_lt (m := c :: rest) fun x hx => ?_] at this
          · simpa [Memory.byteAt] using this.symm
          · rcases List.mem_cons.1 hx with rfl | hr
            · exact hgt
            · exact hgt.trans (hp.1 x hr)
      have hv : c.2 = e.2 := by simpa [Memory.byteAt, hce] using h c.1
      have hrest : rest = tail := by
        refine ih ⟨hp.2, fun x hx => hz x (by simp [hx])⟩ ⟨hq.2, fun x hx => hy x (by simp [hx])⟩ fun x => ?_
        by_cases hx : c.1 = x
        · subst hx
          rw [byteAt_of_lt hp.1, byteAt_of_lt fun y hy => hce ▸ hq.1 y hy]
        · simpa [Memory.byteAt, hx, hce ▸ hx] using h x
      rw [hrest, Prod.ext hce hv]

end MemoryLaws

/-! ## Bounds-checked access -/

variable (s : State)

/-- Every address the stack can form is in range (20_memory.md R38, 00_scope.md R6(c)). -/
theorem byte_lt_memLen (cfg : Config) (v : Byte) : v.toNat < cfg.memLen := by
  unfold Config.memLen; omega

/-- A read beyond memory (R31). -/
theorem State.memRead_of_memLen_le {addr : Nat} (h : s.cfg.memLen ≤ addr) : s.memRead addr = 0 :=
  if_neg (Nat.not_lt.2 h)

/-- What a write does to every read (R31, R32). -/
theorem State.memRead_memWrite (addr : Nat) (v : Byte) (x : Nat) :
    (s.memWrite addr v).memRead x = if x = addr ∧ addr < s.cfg.memLen then v else s.memRead x := by
  simp only [State.memWrite, State.memRead]
  by_cases ha : addr < s.cfg.memLen
  · by_cases hx : x = addr <;> simp [MemoryLaws.byteAt_put, ha, hx]
  · simp [ha]

/-- A read sees the configuration and the memory and no other field. -/
theorem State.memRead_congr {s t : State} (hc : t.cfg = s.cfg) (hm : t.mem = s.mem) (x : Nat) :
    t.memRead x = s.memRead x := by
  simp [State.memRead, hc, hm]

/-- A write keeps the canonical form and the bounds of memory. -/
theorem State.memWrite_keeps {s : State} (addr : Nat) (v : Byte)
    (h : s.mem.wf ∧ ∀ c ∈ s.mem, c.1 < s.cfg.memLen) :
    (s.memWrite addr v).mem.wf ∧ ∀ c ∈ (s.memWrite addr v).mem, c.1 < s.cfg.memLen := by
  simp only [State.memWrite]
  split
  · rename_i ha
    refine ⟨MemoryLaws.wf_put h.1 addr v, fun c hc => ?_⟩
    rcases MemoryLaws.mem_put hc with rfl | hr
    · exact ha
    · exact h.2 c hr
  · exact h

/-- A canonical memory keeps its canonical form under a run of writes. -/
theorem State.writeBytes_keeps {s : State} (addr : Nat) (bytes : List Byte)
    (h : s.mem.wf ∧ ∀ c ∈ s.mem, c.1 < s.cfg.memLen) :
    (s.writeBytes addr bytes).mem.wf ∧ ∀ c ∈ (s.writeBytes addr bytes).mem, c.1 < s.cfg.memLen := by
  induction bytes generalizing s addr with
  | nil => exact h
  | cons v rest ih =>
    have := ih (s := s.memWrite addr v) (addr + 1) (by simpa using State.memWrite_keeps (s := s) addr v h)
    simpa [State.writeBytes] using this

/-- A run of writes changes the memory and no other field. -/
theorem State.writeBytes_eq (addr : Nat) (bytes : List Byte) :
    s.writeBytes addr bytes = { s with mem := (s.writeBytes addr bytes).mem } := by
  induction bytes generalizing s addr with
  | nil => rfl
  | cons v rest ih => rw [State.writeBytes, ih]; rfl

/-! ## The stack -/

@[simp] theorem State.memRead_setSp (v : Byte) (x : Nat) : (s.setSp v).memRead x = s.memRead x := rfl

/-- What a push leaves in memory: the low byte at SP, the high byte one below modulo 256, every other cell as
before (R38, R40). -/
theorem State.memRead_push16 (v : Nat) (x : Nat) :
    (s.push16 v).memRead x =
      if x = s.sp.toNat then lowByte (BitVec.ofNat 16 v)
      else if x = (s.sp - 1).toNat then highByte (BitVec.ofNat 16 v)
      else s.memRead x := by
  have hne : s.sp.toNat ≠ (s.sp - 1).toNat := by bv_omega
  simp only [State.push16, State.pushByte, State.memRead_setSp, State.memRead_memWrite, State.setSp_sp,
    State.setSp_cfg, State.memWrite_cfg, byte_lt_memLen, and_true]
  by_cases h : x = s.sp.toNat
  · rw [if_neg (h ▸ hne), if_pos h, if_pos h]
  · rw [if_neg h, if_neg h]

/-- A push keeps the canonical form and the bounds of memory. -/
theorem State.push16_keeps {s : State} (v : Nat) (h : s.mem.wf ∧ ∀ c ∈ s.mem, c.1 < s.cfg.memLen) :
    (s.push16 v).mem.wf ∧ ∀ c ∈ (s.push16 v).mem, c.1 < s.cfg.memLen := by
  have h1 := State.memWrite_keeps (s := s) s.sp.toNat (lowByte (BitVec.ofNat 16 v)) h
  have h2 := State.memWrite_keeps (s := s.pushByte (lowByte (BitVec.ofNat 16 v)))
    (s.sp - 1).toNat (highByte (BitVec.ofNat 16 v)) (by simpa [State.pushByte] using h1)
  simpa [State.push16, State.pushByte] using h2

/-- The value a pop answers (R39). -/
theorem State.pop16_value :
    s.pop16.1 = joinBytes (s.memRead (s.sp + 1).toNat) (s.memRead (s.sp + 1 + 1).toNat) := rfl

/-- A pop moves SP up by two modulo 256 and changes nothing else (R39). -/
theorem State.pop16_state : s.pop16.2 = s.setSp (s.sp + 1 + 1) := rfl

end Sys2Proof.Machine
end

