-- ==== Sys2Proof/Laws/PerInstr.lean ====
section
/-! SUPPORT. Facts that hold of every instruction, one lemma per constructor. -/

namespace Sys2Proof.Laws.Encoding

/-- The encoding of `i` begins with its opcode byte, has the length that the opcode byte alone gives it
(30_encoding.md R60, R61), and is the encoding of no ill-formed instruction (R67). -/
def Statement (i : Instr) : Prop :=
  ∀ m : OpcodeMap, (encode m i).length = i.length ∧
    (encode m i).head? = some (match i with
      | .undef op => op
      | _ => (i.mnemonic.map m.byteOf).getD 0) ∧
    (i.wellFormed m = false → ∃ k, encode m i = [m.byteOf k])

theorem nop : Statement .nop :=
  fun _ => ⟨rfl, rfl, nofun⟩

theorem ldaImm (imm : Byte) : Statement (.ldaImm imm) :=
  fun _ => ⟨rfl, rfl, nofun⟩

theorem ldbImm (imm : Byte) : Statement (.ldbImm imm) :=
  fun _ => ⟨rfl, rfl, nofun⟩

theorem ldcImm (imm : Byte) : Statement (.ldcImm imm) :=
  fun _ => ⟨rfl, rfl, nofun⟩

theorem lddImm (imm : Byte) : Statement (.lddImm imm) :=
  fun _ => ⟨rfl, rfl, nofun⟩

theorem staAbs (addr : Addr16) : Statement (.staAbs addr) :=
  fun _ => ⟨rfl, rfl, nofun⟩

theorem ldaAbs (addr : Addr16) : Statement (.ldaAbs addr) :=
  fun _ => ⟨rfl, rfl, nofun⟩

theorem ldaIdx : Statement .ldaIdx :=
  fun _ => ⟨rfl, rfl, nofun⟩

theorem staIdx : Statement .staIdx :=
  fun _ => ⟨rfl, rfl, nofun⟩

theorem add : Statement .add :=
  fun _ => ⟨rfl, rfl, nofun⟩

theorem sub : Statement .sub :=
  fun _ => ⟨rfl, rfl, nofun⟩

theorem and : Statement .and :=
  fun _ => ⟨rfl, rfl, nofun⟩

theorem or : Statement .or :=
  fun _ => ⟨rfl, rfl, nofun⟩

theorem inc : Statement .inc :=
  fun _ => ⟨rfl, rfl, nofun⟩

theorem dec : Statement .dec :=
  fun _ => ⟨rfl, rfl, nofun⟩

theorem cmp : Statement .cmp :=
  fun _ => ⟨rfl, rfl, nofun⟩

theorem jmp (addr : Addr16) : Statement (.jmp addr) :=
  fun _ => ⟨rfl, rfl, nofun⟩

theorem jz (addr : Addr16) : Statement (.jz addr) :=
  fun _ => ⟨rfl, rfl, nofun⟩

theorem jnz (addr : Addr16) : Statement (.jnz addr) :=
  fun _ => ⟨rfl, rfl, nofun⟩

theorem call (addr : Addr16) : Statement (.call addr) :=
  fun _ => ⟨rfl, rfl, nofun⟩

theorem ret : Statement .ret :=
  fun _ => ⟨rfl, rfl, nofun⟩

theorem movBA : Statement .movBA :=
  fun _ => ⟨rfl, rfl, nofun⟩

theorem movAB : Statement .movAB :=
  fun _ => ⟨rfl, rfl, nofun⟩

theorem movCA : Statement .movCA :=
  fun _ => ⟨rfl, rfl, nofun⟩

theorem movAC : Statement .movAC :=
  fun _ => ⟨rfl, rfl, nofun⟩

theorem movDA : Statement .movDA :=
  fun _ => ⟨rfl, rfl, nofun⟩

theorem movAD : Statement .movAD :=
  fun _ => ⟨rfl, rfl, nofun⟩

theorem inp : Statement .inp :=
  fun _ => ⟨rfl, rfl, nofun⟩

theorem halt : Statement .halt :=
  fun _ => ⟨rfl, rfl, nofun⟩

theorem undef (op : Byte) : Statement (.undef op) := by
  refine fun m => ⟨rfl, rfl, fun h => ?_⟩
  have hm : op ∈ m.toList := by simpa [Instr.wellFormed] using h
  obtain ⟨k, -, rfl⟩ := List.mem_map.1 (m.toList_eq_map ▸ hm)
  exact ⟨k, rfl⟩

end Sys2Proof.Laws.Encoding
end

