-- ==== Sys2Proof/Laws/Step.lean ====
section
/-! SUPPORT. What a step can do, once (40_step_and_nop.md R80), and what the fetch reads. -/

namespace Sys2Proof.Machine

/-- The three cases of a step: stopped, out of bounds, or one instruction executed. -/
theorem step_cases (s : State) :
    (s.running = false ∧ step s = .next s) ∨
    (s.running = true ∧ s.cfg.memLen ≤ s.pc ∧ step s = .next s.stop) ∨
    (s.running = true ∧ s.pc < s.cfg.memLen ∧ step s = exec s.fetch s.countStep) := by
  unfold step State.cycle
  cases hr : s.running
  · simp
  · by_cases hp : s.cfg.memLen ≤ s.pc
    · simp [hp]
    · simp [hp, Nat.lt_of_not_le hp]

/-- A step that fetches executes the fetched instruction after counting one step. -/
theorem step_of_fetches {s : State} (hr : s.running = true) (hp : s.pc < s.cfg.memLen) :
    step s = exec s.fetch s.countStep := by
  simp [step, State.cycle, hr, hp]

/-- The fetch of an assigned opcode. -/
theorem State.fetch_of_lookup {s : State} {k : Mnemonic} (h : s.cfg.opcodes.lookup (s.memRead s.pc) = some k) :
    s.fetch = k.instr s.imm8 (s.addr16 (s.pc + 1)) := by
  simp [State.fetch, h]

/-- The fetch of the byte that an injective opcode map gives mnemonic `k`. -/
theorem State.fetch_of_byteOf {s : State} {k : Mnemonic} (hm : s.cfg.opcodes.Injective)
    (h : s.memRead s.pc = s.cfg.opcodes.byteOf k) : s.fetch = k.instr s.imm8 (s.addr16 (s.pc + 1)) :=
  State.fetch_of_lookup (by rw [h, OpcodeMap.lookup_byteOf hm])

/-- The fetch of an undefined opcode. -/
theorem State.fetch_of_lookup_none {s : State} (h : s.cfg.opcodes.lookup (s.memRead s.pc) = none) :
    s.fetch = .undef (s.memRead s.pc) := by
  simp [State.fetch, h]

end Sys2Proof.Machine
end

