-- ==== Sys2Proof/Tests/Slice0.lean ====
section
/-! SUPPORT. Small tests. Expected values come from the spec: the words of 30_encoding.md R65 and the vectors of
95_test_vectors.md, named in each comment; then, for every statement with hypotheses, a concrete state and
operands that meet them all. -/

namespace Sys2Proof.Tests

open Sys2Proof Sys2Proof.Machine

/-- The state one step later, for tests on a step that answers a next state. -/
def after (s : State) : State :=
  match step s with
  | .next t => t
  | .fault _ => s
  | .refused _ => s

/-- The reset state with PC and a few cells set. -/
def start (pc : Nat) (mem : Memory) : State := { State.reset with pc := pc, mem := mem }

/-! ## Well-formedness: each check refuses an ill-formed term (R6, R67) -/

theorem test_wf_undef_assigned : ¬ (Instr.undef 0x09).WellFormed .ref := by decide
theorem test_wf_undef_unassigned : (Instr.undef 0x1D).WellFormed .ref := by decide
theorem test_wf_ref : Config.ref.wf := by decide
theorem test_memLen_ref : Config.ref.memLen = 0x300 := by decide
theorem test_wf_width : ¬ ({ Config.ref with fbWidth := 0 } : Config).wf := by decide
theorem test_wf_height : ¬ ({ Config.ref with fbHeight := 0 } : Config).wf := by decide
theorem test_wf_size : ¬ ({ Config.ref with fbWidth := 65536, fbHeight := 1 } : Config).wf := by decide
theorem test_wf_score_same : ¬ ({ Config.ref with highScoreAddr := 0x200 } : Config).wf := by decide
theorem test_wf_score_range : ¬ ({ Config.ref with scoreAddr := 0x300 } : Config).wf := by decide
theorem test_wf_high_range : ¬ ({ Config.ref with highScoreAddr := 0x300 } : Config).wf := by decide
theorem test_wf_opcodes :
    ¬ ({ Config.ref with opcodes := { OpcodeMap.ref with halt := 0x00 } } : Config).wf := by decide

/-! ## Decoding: one word per constructor, written out from R65 -/

theorem test_decode_NOP : decode .ref [0x00] = .ok (.nop, []) := by decide
theorem test_decode_LDA_IMM : decode .ref [0x01, 0x05] = .ok (.ldaImm 0x05, []) := by decide
theorem test_decode_LDB_IMM : decode .ref [0x02, 0x03] = .ok (.ldbImm 0x03, []) := by decide
theorem test_decode_LDC_IMM : decode .ref [0x03, 0xFF] = .ok (.ldcImm 0xFF, []) := by decide
theorem test_decode_LDD_IMM : decode .ref [0x04, 0x80] = .ok (.lddImm 0x80, []) := by decide
theorem test_decode_STA_ABS : decode .ref [0x05, 0x00, 0x01] = .ok (.staAbs 0x0100, []) := by decide
theorem test_decode_LDA_ABS : decode .ref [0x06, 0x80, 0x00] = .ok (.ldaAbs 0x0080, []) := by decide
theorem test_decode_LDA_IDX : decode .ref [0x07] = .ok (.ldaIdx, []) := by decide
theorem test_decode_STA_IDX : decode .ref [0x08] = .ok (.staIdx, []) := by decide
theorem test_decode_ADD : decode .ref [0x09, 0x1C] = .ok (.add, [0x1C]) := by decide
theorem test_decode_SUB : decode .ref [0x0A] = .ok (.sub, []) := by decide
theorem test_decode_AND : decode .ref [0x0B] = .ok (.and, []) := by decide
theorem test_decode_OR : decode .ref [0x0C] = .ok (.or, []) := by decide
theorem test_decode_INC : decode .ref [0x0D] = .ok (.inc, []) := by decide
theorem test_decode_DEC : decode .ref [0x0E] = .ok (.dec, []) := by decide
theorem test_decode_CMP : decode .ref [0x0F] = .ok (.cmp, []) := by decide
theorem test_decode_JMP : decode .ref [0x10, 0x34, 0x02] = .ok (.jmp 0x0234, []) := by decide
theorem test_decode_JZ : decode .ref [0x11, 0x08, 0x00] = .ok (.jz 0x0008, []) := by decide
theorem test_decode_JNZ : decode .ref [0x12, 0x04, 0x00] = .ok (.jnz 0x0004, []) := by decide
theorem test_decode_CALL : decode .ref [0x13, 0x09, 0x00] = .ok (.call 0x0009, []) := by decide
theorem test_decode_RET : decode .ref [0x14] = .ok (.ret, []) := by decide
theorem test_decode_MOV_BA : decode .ref [0x15] = .ok (.movBA, []) := by decide
theorem test_decode_MOV_AB : decode .ref [0x16] = .ok (.movAB, []) := by decide
theorem test_decode_MOV_CA : decode .ref [0x17] = .ok (.movCA, []) := by decide
theorem test_decode_MOV_AC : decode .ref [0x18] = .ok (.movAC, []) := by decide
theorem test_decode_MOV_DA : decode .ref [0x19] = .ok (.movDA, []) := by decide
theorem test_decode_MOV_AD : decode .ref [0x1A] = .ok (.movAD, []) := by decide
theorem test_decode_INP : decode .ref [0x1B] = .ok (.inp, []) := by decide
theorem test_decode_HALT : decode .ref [0x1C] = .ok (.halt, []) := by decide
theorem test_decode_UNDEF : decode .ref [0x1D, 0x1C] = .ok (.undef 0x1D, [0x1C]) := by decide
theorem test_decode_UNDEF_last : decode .ref [0xFF] = .ok (.undef 0xFF, []) := by decide
theorem test_decode_none : decode .ref [] = .error .noOpcode := by decide
theorem test_decode_short : decode .ref [0x05, 0x00] = .error (.operandMissing .staAbs) := by decide
theorem test_encode_CALL : encode .ref (.call 0x1234) = [0x13, 0x34, 0x12] := by decide
theorem test_table_word : decodeTableWord 24 0x023410 = some (.jmp 0x0234) := by decide
theorem test_table_word_masked : decodeTableWord 8 0x023410 = some (.jmp 0x0000) := by decide
theorem test_isaSize : isaSize = 29 := by decide

/-! ## The step (V-STEP) -/

/-- V-STEP 1. -/
theorem test_step_NOP : (after (start 0x10 [])).pc = 0x11 ∧ (after (start 0x10 [])).steps = 1 := by decide
/-- V-STEP 2. -/
theorem test_step_UNDEF : (after (start 0x20 [(0x20, 0xFF), (0x21, 0x1C)])).pc = 0x21 := by decide
/-- V-STEP 4. -/
theorem test_step_last_cell : (after (start 0x2FF [])).pc = 0x300 ∧ (after (start 0x2FF [])).running = true := by
  decide
/-- V-STEP 5. -/
theorem test_step_out : after (start 0x300 []) = { start 0x300 [] with running := false } := by decide
/-- V-STEP 7. -/
theorem test_step_stopped : after { start 0x10 [] with running := false } = { start 0x10 [] with running := false } := by
  decide
/-- The first step after a word is placed at reset runs it: LDA_IMM 5, S1. -/
theorem test_fetch_word : (after (State.reset.withFetchWord 16 0x0501)).a = 5 := by decide
/-- `10 34 02` at 0, V-CTL 1. -/
theorem test_fetch_word_jmp : (after (State.reset.withFetchWord 24 0x023410)).pc = 0x234 := by decide

/-! ## Loads and stores (V-LDST) -/

/-- V-LDST 1. -/
theorem test_LDA_IMM_zero : (after { start 0 [(0, 0x01)] with a := 0x77 }).a = 0 ∧
    (after { start 0 [(0, 0x01)] with a := 0x77 }).zf = false := by decide
/-- V-LDST 6. -/
theorem test_LDA_IMM_beyond : (after { start 0x2FF [(0x2FF, 0x01)] with a := 0x77 }).a = 0 ∧
    (after { start 0x2FF [(0x2FF, 0x01)] with a := 0x77 }).pc = 0x301 := by decide
/-- V-LDST 3. -/
theorem test_LDB_IMM : (after (start 0 [(0, 0x02), (1, 0xFF)])).b = 0xFF := by decide
/-- V-LDST 4. -/
theorem test_LDC_IMM : (after (start 0 [(0, 0x03), (1, 0x01)])).c = 1 ∧
    (after (start 0 [(0, 0x03), (1, 0x01)])).cf = false := by decide
/-- V-LDST 5. -/
theorem test_LDD_IMM : (after (start 0 [(0, 0x04), (1, 0x80)])).d = 0x80 := by decide
/-- V-LDST 8. -/
theorem test_STA_ABS_out : (after { start 0 [(0, 0x05), (2, 0x03)] with a := 7 }).mem = [(0, 0x05), (2, 0x03)] := by
  decide
/-- V-LDST 10. -/
theorem test_STA_ABS_self :
    (after { start 0x10 [(0x10, 0x05), (0x11, 0x11)] with a := 0xEE }).mem = [(0x10, 0x05), (0x11, 0xEE)] ∧
    (after { start 0x10 [(0x10, 0x05), (0x11, 0x11)] with a := 0xEE }).pc = 0x13 := by decide
/-- V-LDST 12. -/
theorem test_LDA_ABS_out : (after { start 0 [(0, 0x06), (2, 0x03)] with a := 0x55 }).a = 0 := by decide
/-- V-LDST 20. -/
theorem test_LDA_ABS_split : (after (start 0x2FE [(0x12, 0x5A), (0x2FE, 0x06), (0x2FF, 0x12)])).a = 0x5A := by decide
/-- V-LDST 15. -/
theorem test_LDA_IDX_nine_bits :
    (after { start 0 [(0, 0x07), (0xFE, 0x11), (0x1FE, 0x99)] with b := 0xFF, c := 0xFF }).a = 0x99 := by decide
/-- V-LDST 17. -/
theorem test_STA_IDX : (after { start 0 [(0, 0x08)] with a := 7, b := 0xFF, c := 0x04 }).mem =
    [(0, 0x08), (0x103, 0x07)] := by decide
/-- V-LDST 19: MEM_LEN = 300. -/
theorem test_STA_IDX_small_memory :
    (after { start 0 [(0, 0x08)] with
      cfg := { Config.ref with vramStart := 0, fbWidth := 4, fbHeight := 11, scoreAddr := 1, highScoreAddr := 2 },
      a := 9, b := 0xFF, c := 0xFF }).mem = [(0, 0x08)] := by decide

/-! ## Arithmetic and logic (V-ALU) -/

/-- The reset state with an opcode at 0 and A, B, CF set. -/
def alu (op a b : Byte) (cf : Bool) : State := { start 0 [(0, op)] with a := a, b := b, cf := cf }

theorem test_ADD_old_operands : (after (alu 0x09 0xC8 0x64 false)).a = 0x2C ∧
    (after (alu 0x09 0xC8 0x64 false)).cf = true ∧ (after (alu 0x09 0xC8 0x64 false)).zf = false := by decide
theorem test_ADD_zero_and_carry : (after (alu 0x09 0xFF 0x01 false)).flags = 0b11 := by decide
theorem test_SUB_borrow : (after (alu 0x0A 0x03 0x05 false)).a = 0xFE ∧
    (after (alu 0x0A 0x03 0x05 false)).cf = true := by decide
theorem test_SUB_equal : (after (alu 0x0A 0xFF 0xFF true)).flags = 0b01 := by decide
theorem test_AND : (after (alu 0x0B 0xF0 0x3C true)).a = 0x30 ∧
    (after (alu 0x0B 0xF0 0x3C true)).flags = 0b10 := by decide
theorem test_OR : (after (alu 0x0C 0xF0 0x0F true)).a = 0xFF ∧
    (after (alu 0x0C 0x00 0x00 true)).flags = 0b11 := by decide
theorem test_INC_wrap : (after (alu 0x0D 0xFF 0x00 false)).a = 0 ∧
    (after (alu 0x0D 0xFF 0x00 false)).flags = 0b01 := by decide
theorem test_DEC_wrap : (after (alu 0x0E 0x00 0x00 false)).a = 0xFF ∧
    (after (alu 0x0E 0x00 0x00 false)).flags = 0b00 := by decide
theorem test_CMP_different : (after { alu 0x0F 0x05 0x06 true with zf := true }).flags = 0b10 ∧
    (after (alu 0x0F 0x05 0x06 true)).a = 5 := by decide
theorem test_CMP_equal : (after (alu 0x0F 0x00 0x00 true)).flags = 0b11 := by decide

/-! ## Control transfers (V-CTL, V-STACK) -/

/-- V-CTL 5. -/
theorem test_JMP_beyond : (after (start 0x2FE [(0x2FE, 0x10), (0x2FF, 0x12)])).pc = 0x12 := by decide
/-- V-CTL 3. -/
theorem test_JMP_out : (after (start 0 [(0, 0x10), (1, 0xFF), (2, 0xFF)])).pc = 0xFFFF := by decide
/-- V-CTL 6. -/
theorem test_JZ_taken : (after { start 5 [(5, 0x11), (6, 0x20)] with zf := true }).pc = 0x20 := by decide
/-- V-CTL 7. -/
theorem test_JZ_not_taken : (after (start 5 [(5, 0x11), (6, 0x20)])).pc = 8 := by decide
/-- V-CTL 8. -/
theorem test_JNZ_taken : (after (start 0xB [(0xB, 0x12), (0xC, 0x04)])).pc = 4 := by decide
/-- V-CTL 9. -/
theorem test_JNZ_not_taken : (after { start 0xB [(0xB, 0x12), (0xC, 0x04)] with zf := true }).pc = 0xE := by decide
/-- V-CTL 12. -/
theorem test_CALL : let t := after { start 0x123 [(0x123, 0x13), (0x125, 0x02)] with sp := 0x80 }
    t.mem = [(0x7F, 0x01), (0x80, 0x26), (0x123, 0x13), (0x125, 0x02)] ∧ t.sp = 0x7E ∧ t.pc = 0x200 := by decide
/-- V-CTL 20: the push overwrites the CALL's own operand bytes. -/
theorem test_CALL_self : let t := after (start 0xFD [(0xFD, 0x13), (0xFE, 0x40)])
    t.mem = [(0xFD, 0x13), (0xFE, 0x01)] ∧ t.sp = 0xFD ∧ t.pc = 0x40 := by decide
/-- V-CTL 18. -/
theorem test_RET_wrap : let t := after { start 0x40 [(0x00, 0x34), (0x40, 0x14), (0xFF, 0x12)] with sp := 0xFE }
    t.pc = 0x1234 ∧ t.sp = 0 := by decide
/-- V-CTL 19. -/
theorem test_RET_after_reset : (after (start 0 [(0, 0x14)])).pc = 0x1400 ∧ (after (start 0 [(0, 0x14)])).sp = 1 := by
  decide
/-- V-STACK 3. -/
theorem test_push_wrap : (({ start 0 [] with sp := 0 } : State).push16 0x1234).mem = [(0x00, 0x34), (0xFF, 0x12)] := by
  decide
/-- V-STACK 7. -/
theorem test_push_above : (({ start 0 [] with sp := 0x80 } : State).push16 0x10000).mem = [] := by decide

/-! ## Copies, input, halt (V-MOV, V-SYS) -/

/-- The start state of V-MOV with an opcode at 0. -/
def mov (op : Byte) : State :=
  { start 0 [(0, op)] with a := 0xA1, b := 0xB2, c := 0xC3, d := 0xD4, zf := true, cf := true }

theorem test_MOV_BA : after (mov 0x15) = { mov 0x15 with b := 0xA1, pc := 1, steps := 1 } := by decide
theorem test_MOV_AB : after (mov 0x16) = { mov 0x16 with a := 0xB2, pc := 1, steps := 1 } := by decide
theorem test_MOV_CA : after (mov 0x17) = { mov 0x17 with c := 0xA1, pc := 1, steps := 1 } := by decide
theorem test_MOV_AC : after (mov 0x18) = { mov 0x18 with a := 0xC3, pc := 1, steps := 1 } := by decide
theorem test_MOV_DA : after (mov 0x19) = { mov 0x19 with d := 0xA1, pc := 1, steps := 1 } := by decide
theorem test_MOV_AD : after (mov 0x1A) = { mov 0x1A with a := 0xD4, pc := 1, steps := 1 } := by decide
/-- V-SYS 1. -/
theorem test_INP : (after { start 0 [(0, 0x1B)] with pendingInput := 0x41 }).a = 0x41 ∧
    (after { start 0 [(0, 0x1B)] with pendingInput := 0x41 }).pendingInput = 0 := by decide
/-- V-SYS 3. -/
theorem test_INP_none : (after { start 0 [(0, 0x1B)] with a := 0x55 }).a = 0 ∧
    (after { start 0 [(0, 0x1B)] with a := 0x55 }).zf = false := by decide
/-- V-SYS 6. -/
theorem test_HALT : after { start 8 [(8, 0x1C)] with steps := 6 } =
    { start 8 [(8, 0x1C)] with running := false, steps := 7 } := by decide

/-! ## The host (V-HOST) and memory -/

/-- V-HOST 2. -/
theorem test_loadProgram : (State.reset.loadProgram [0xAA, 0xBB, 0xCC, 0xDD] 0x2FE).mem =
    [(0x2FE, 0xAA), (0x2FF, 0xBB)] := by decide
/-- S4. -/
theorem test_poke_out : State.reset.poke 70000 0xCC = State.reset := by decide
/-- V-HOST 4. -/
theorem test_peek_out : State.reset.peek 0x300 = 0 ∧ State.reset.peek 99999 = 0 := by decide +kernel
set_option maxRecDepth 20000 in
/-- V-HOST 5. -/
theorem test_construct : hostMove (.construct 16 16) (start 7 [(3, 3)]) = .next State.reset := rfl
/-- R6(a), D6. -/
theorem test_construct_refused : hostMove (.construct 0 16) State.reset = .refused .configuration := rfl
/-- Writing the value that an unlisted address reads as removes the cell. -/
theorem test_put_zero : Memory.put [(3, 3), (5, 5)] 3 0 = [(5, 5)] := by decide
/-- R34 under REF. -/
theorem test_regions : regionOf .ref 0xFF = .low ∧ regionOf .ref 0x100 = .framebuffer ∧
    regionOf .ref 0x1FF = .framebuffer ∧ regionOf .ref 0x200 = .tail ∧ regionOf .ref 0x2FF = .tail ∧
    regionOf .ref 0x300 = .outOfRange := by decide
/-- R54, CALL. -/
theorem test_accesses_CALL : (start 2 [(2, 0x13), (3, 0x09)]).accesses =
    [.r 2, .r 3, .r 4, .w 0xFF, .w 0xFE] := by decide

/-! ## Witnesses: concrete states and operands that meet the hypotheses of each statement -/

theorem test_witness_DecodeOfEncodeIsTheInstruction :
    OpcodeMap.ref.Injective ∧ (Instr.call 0xFFFF).WellFormed .ref ∧ (Instr.undef 0xFF).WellFormed .ref := by decide
theorem test_witness_EncodeOfDecodeIsTheBytes :
    decode .ref [0x10, 0x34, 0x02, 0x00] = .ok (.jmp 0x0234, [0x00]) := by decide
theorem test_witness_OpcodeByteAloneGivesTheLength :
    decode .ref [0x01, 0x05] = .ok (.ldaImm 0x05, []) ∧
    decode .ref [0x01, 0xFF, 0x00] = .ok (.ldaImm 0xFF, [0x00]) ∧ (0x1D : Byte) ∉ OpcodeMap.ref.toList ∧
    OpcodeMap.ref.Injective ∧ 2 ≤ [(0x34 : Byte), 0x02].length ∧
    decode .ref [0x0A, 0x34, 0x02] = .ok (.sub, [0x34, 0x02]) ∧ decode .ref [0x10, 0x34, 0x02] = .ok (.jmp 0x0234, []) ∧
    (start 0 [(0, 0x05)]).memRead 0 = (start 7 [(7, 0x05), (8, 0x01)]).memRead 7 := by decide
theorem test_witness_UndefinedOpcodesNumber227 : OpcodeMap.ref.Injective := by decide
theorem test_witness_StepRunsTheDecodedInstruction : (start 0x2FF [(0x2FF, 0x05)]).Fetches ∧
    decode (start 0x2FF [(0x2FF, 0x05)]).cfg.opcodes (start 0x2FF [(0x2FF, 0x05)]).fetchBytes =
      .ok (.staAbs 0, []) := by decide
set_option maxRecDepth 20000 in
theorem test_witness_StepRunsWhatMemoryHolds : (start 0 [(0, 0x01), (1, 0x05)]).cfg.opcodes.Injective ∧
    (Instr.ldaImm 5).WellFormed (start 0 [(0, 0x01), (1, 0x05)]).cfg.opcodes ∧
    (start 0 [(0, 0x01), (1, 0x05)]).Fetches ∧
    (start 0 [(0, 0x01), (1, 0x05)]).Holds 0 (encode .ref (.ldaImm 5)) :=
  ⟨by decide +kernel, by decide +kernel, by decide +kernel, fun k h => by
    have : k < 2 := h
    interval_cases k <;> rfl⟩
theorem test_witness_StepOutsideMemoryStops :
    (start 0x300 []).running = true ∧ (start 0x300 []).cfg.memLen ≤ (start 0x300 []).pc := by decide
theorem test_witness_StepAlwaysAnswersANextState :
    (start 0x300 []).running = true ∧ (start 0x300 []).cfg.memLen ≤ (start 0x300 []).pc := by decide
theorem test_witness_StepCountsExecutedOpcodesOnly :
    (start 0x2FF []).Fetches ∧ ¬ (start 0x300 []).Fetches ∧ ¬ ({ start 0 [] with running := false } : State).Fetches := by
  decide
set_option maxRecDepth 20000 in
theorem test_witness_RunEndsInExactlyTwoWays :
    (start 8 [(8, 0x1C)]).running = true ∧ (start 8 [(8, 0x1C)]).fetch = .halt ∧
    (start 0x300 []).running = true ∧ ({ start 8 [] with running := false } : State).running = false := by decide
set_option maxRecDepth 20000 in
theorem test_witness_StepKeepsTheInvariant : ∃ t, (start 0x2FF [(0x2FF, 0x10)]).Inv ∧
    step (start 0x2FF [(0x2FF, 0x10)]) = .next t := ⟨_, by decide +kernel, rfl⟩
theorem test_witness_ResetMeetsTheInvariant : Config.ref.wf := by decide
theorem test_witness_HostMovesKeepTheInvariant : ∃ t, HostMove.poke 0x2FF 7 ≠ .step ∧ State.reset.Inv ∧
    hostMove (.poke 0x2FF 7) State.reset = .next t := ⟨_, by decide, by decide, rfl⟩
set_option maxRecDepth 20000 in
theorem test_witness_HostMovesKeepTheInvariant_construct : ∃ t, HostMove.construct 4 4 ≠ .step ∧ State.reset.Inv ∧
    hostMove (.construct 4 4) State.reset = .next t := ⟨_, by decide +kernel, by decide +kernel, rfl⟩
set_option maxRecDepth 20000 in
theorem test_witness_ReachableStatesMeetTheInvariant : Reachable (after State.reset) :=
  .move (m := .step) (.construct (cfg := .ref) (by decide +kernel)) rfl
theorem test_witness_OnlyConstructMakesAStoppedEngineRun : ∃ t,
    ({ start 8 [] with running := false } : State).running = false ∧
    (∀ w h, HostMove.setPendingInput 7 ≠ .construct w h) ∧
    hostMove (.setPendingInput 7) { start 8 [] with running := false } = .next t := ⟨_, rfl, nofun, rfl⟩
theorem test_witness_GeneralRegistersHaveOnlyTheirWriters : ∃ t, (∀ k ∈ writersOf .D, Instr.add.mnemonic ≠ some k) ∧
    exec .add (mov 0x09) = .next t := ⟨_, by decide, rfl⟩
theorem test_witness_GeneralRegistersHaveOnlyTheirReaders :
    (∀ k ∈ readersOf .A, Instr.ldaIdx.mnemonic ≠ some k) ∧ (∀ k ∈ readersOf .B, Instr.inc.mnemonic ≠ some k) ∧
    (∀ k ∈ readersOf .C, Instr.add.mnemonic ≠ some k) ∧ (∀ k ∈ readersOf .D, Instr.ret.mnemonic ≠ some k) ∧
    (∃ k ∈ writersOf .A, Instr.ldaIdx.mnemonic = some k) ∧ (∀ k ∈ writersOf .B, Instr.inc.mnemonic ≠ some k) := by decide
theorem test_witness_FlagsHaveOnlyTheirWriters : ∃ t, exec (.ldaImm 0) (mov 0x01) = .next t ∧
    (∀ k ∈ zeroWriters, (Instr.ldaImm 0).mnemonic ≠ some k) ∧
    ∀ k ∈ carryWriters, (Instr.ldaImm 0).mnemonic ≠ some k := ⟨_, rfl, by decide, by decide⟩
theorem test_witness_ZeroFlagFollowsTheNewAccumulator : ∃ t, Instr.inc ≠ .add ∧ Instr.inc ≠ .sub ∧
    exec .inc (alu 0x0D 0xFF 0 false) = .next t := ⟨_, by decide, by decide, rfl⟩
theorem test_witness_OnlyCallAndRetUseTheStackPointer :
    (∀ addr, Instr.jmp 7 ≠ .call addr) ∧ Instr.jmp 7 ≠ .ret := ⟨nofun, nofun⟩
theorem test_witness_OnlyInpUsesThePendingInput : Instr.halt ≠ .inp := by decide
theorem test_witness_StepChangesOnlyTheCellsItWrites :
    Access.w 0xFD ∉ (start 2 [(2, 0x13), (3, 0x09)]).accesses ∧
    Access.w 2 ∉ (start 2 [(2, 0x13), (3, 0x09)]).accesses := by decide
theorem test_witness_StepDependsOnlyOnTheCellsItReads :
    ∀ x, Access.r x ∈ (start 0 [(0, 0x07), (9, 0x11)]).accesses →
      State.memRead { start 0 [(0, 0x07), (9, 0x11)] with mem := [(0, 0x07), (9, 0x22)] } x =
        (start 0 [(0, 0x07), (9, 0x11)]).memRead x := by
  have : (start 0 [(0, 0x07), (9, 0x11)]).accesses = [.r 0, .r 0] := by decide
  rw [this]
  intro x h
  have hx : x = 0 := by simpa using h
  subst hx
  decide
theorem test_witness_NopAndUndefinedOnlyAdvance :
    (start 0x20 [(0x20, 0xFF)]).Fetches ∧ (start 0x20 [(0x20, 0xFF)]).cfg.opcodes.Injective ∧
    (start 0x20 [(0x20, 0xFF)]).memRead 0x20 ∉ OpcodeMap.ref.toList ∧
    (start 0x21 []).memRead 0x21 = OpcodeMap.ref.nop ∧ (start 0x2FF []).pc + 1 = Config.ref.memLen := by decide
theorem test_witness_StaAbsStoresTheAccumulator :
    (0x02FF : Addr16).toNat < State.reset.cfg.memLen ∧ State.reset.cfg.memLen ≤ (0x0300 : Addr16).toNat ∧
    (0 : Nat) ≠ (0x02FF : Addr16).toNat := by decide
/-- STA_ABS at 0x10 on its own three bytes in turn. -/
theorem test_witness_StaAbsStoresTheAccumulator_self : ∀ lo ∈ [(0x10 : Byte), 0x11, 0x12],
    (start 0x10 [(0x10, 0x05), (0x11, lo)]).Fetches ∧ (start 0x10 [(0x10, 0x05), (0x11, lo)]).cfg.opcodes.Injective ∧
    (start 0x10 [(0x10, 0x05), (0x11, lo)]).memRead 0x10 = OpcodeMap.ref.staAbs ∧
    (start 0x10 [(0x10, 0x05), (0x11, lo)]).addr16 0x11 = joinBytes 0 lo := by decide
theorem test_witness_LdaAbsLoadsTheByte :
    (0x02FF : Addr16).toNat < State.reset.cfg.memLen ∧ State.reset.cfg.memLen ≤ (0x0300 : Addr16).toNat := by decide
/-- MEM_LEN = 300 for the clauses on a sum out of range. -/
theorem test_witness_LdaIdxLoadsAtTheNineBitSum :
    (mov 0x07).b.toNat + (mov 0x07).c.toNat < (mov 0x07).cfg.memLen ∧
    ({ Config.ref with vramStart := 0, fbWidth := 4, fbHeight := 11 } : Config).memLen ≤
      (mov 0x07).b.toNat + (mov 0x07).c.toNat := by decide
theorem test_witness_StaIdxStoresAtTheNineBitSum :
    (0xB2 : Byte).toNat + (0xC3 : Byte).toNat = 0x175 ∧ 0x175 < (mov 0x08).cfg.memLen ∧
    ({ Config.ref with vramStart := 0, fbWidth := 4, fbHeight := 11 } : Config).memLen ≤ 0x175 := by decide
/-- STA_IDX at 0x10 on its own opcode. -/
theorem test_witness_StaIdxStoresAtTheNineBitSum_self : ∃ s, s = { start 0x10 [(0x10, 0x08)] with b := 0x0C, c := 4 } ∧
    s.Fetches ∧ s.cfg.opcodes.Injective ∧ s.memRead s.pc = s.cfg.opcodes.staIdx ∧ s.b.toNat + s.c.toNat = s.pc :=
  ⟨_, rfl, by decide⟩
theorem test_witness_JmpTakesTheAbsoluteAddress :
    (0x0040 : Addr16).toNat = (start 0x40 [(0x40, 0x10), (0x41, 0x40)]).pc ∧
    (start 0x40 [(0x40, 0x10), (0x41, 0x40)]).Fetches ∧
    (start 0x40 [(0x40, 0x10), (0x41, 0x40)]).cfg.opcodes.Injective ∧
    (start 0x40 [(0x40, 0x10), (0x41, 0x40)]).memRead 0x40 = OpcodeMap.ref.jmp ∧
    Config.ref.memLen ≤ (0x0300 : Addr16).toNat := by decide
theorem test_witness_ConditionalJumpsFollowTheZeroFlag : (mov 0x11).zf = true ∧ (start 0 []).zf = false := by decide
theorem test_witness_CallPushesTheReturnAddress :
    ∃ x, x ≠ (start 0 []).sp.toNat ∧ x ≠ ((start 0 []).sp.toNat + 255) % 256 := ⟨0xFD, by decide, by decide⟩
/-- V-CTL 18: the popped address lies beyond memory. -/
theorem test_witness_RetPopsTheReturnAddress : ∃ t,
    exec .ret { start 0x40 [(0x00, 0x34), (0xFF, 0x12)] with sp := 0xFE } = .next t ∧ t.running = true ∧
    t.cfg.memLen ≤ t.pc := ⟨_, rfl, rfl, by decide⟩
theorem test_witness_ReadsAndWritesAreBoundsChecked :
    0x2FF < State.reset.cfg.memLen ∧ State.reset.cfg.memLen ≤ 0x300 := by decide
theorem test_witness_OperandAddressIsLittleEndian : (start 0 [(0, 0x13), (1, 0x34), (2, 0x12)]).fetch = .call 0x1234 := by
  decide +kernel
theorem test_witness_OperandsBeyondMemoryReadZero :
    (start 0x2FF [(0x2FF, 0x01)]).pc + 1 = Config.ref.memLen ∧ (start 0x2FE []).pc + 2 = Config.ref.memLen ∧
    (start 0x2FF [(0x2FF, 0x01)]).running = true ∧ (start 0x2FF [(0x2FF, 0x01)]).cfg.opcodes.Injective ∧
    (start 0x2FF [(0x2FF, 0x01)]).memRead 0x2FF = OpcodeMap.ref.byteOf .ldaImm ∧
    (start 0x2FE [(0x2FE, 0x10), (0x2FF, 0x12)]).running = true ∧
    (start 0x2FE [(0x2FE, 0x10), (0x2FF, 0x12)]).memRead 0x2FE = OpcodeMap.ref.byteOf .jmp := by decide
set_option maxRecDepth 20000 in
theorem test_witness_CallThenRetResumesAfterTheCall : ∃ t, exec (.call 9) (start 2 []) = .next t ∧
    (start 2 []).pc + 3 ≤ 0xFFFF ∧ ({ t with a := 7 } : State).sp = t.sp ∧
    ({ t with a := 7 } : State).memRead 0xFF = t.memRead 0xFF ∧
    ({ t with a := 7 } : State).memRead 0xFE = t.memRead 0xFE := ⟨_, rfl, by decide +kernel, rfl, rfl, rfl⟩
/-- The states of a program that does nothing but CALL 7. -/
def callChain : Nat → State
  | 0 => start 2 []
  | n + 1 => ((callChain n).push16 ((callChain n).pc + 3)).jump 7
theorem test_witness_NestedCallsFillTheStackPage : (∀ n, exec (.call 7) (callChain n) = .next (callChain (n + 1))) ∧
    ∀ n, (callChain (n + 1)).sp = (callChain (n + 1)).sp ∧
      ∀ x < 256, (callChain (n + 1)).memRead x = (callChain (n + 1)).memRead x := ⟨fun _ => rfl, fun _ => ⟨rfl, fun _ _ => rfl⟩⟩
theorem test_witness_PushesWrapTheStackPage : (List.replicate 128 5).length = 128 := by decide +kernel
theorem test_witness_TransferBeyondMemoryStopsTheNextStep :
    (start 0 [(0, 0x10), (2, 0x03)]).Fetches ∧ Config.ref.memLen ≤ (0x0300 : Addr16).toNat ∧
    (start 0 [(0, 0x10), (2, 0x03)]).fetch = .jmp 0x0300 ∧ (start 0 [(0, 0x13), (2, 0x03)]).fetch = .call 0x0300 ∧
    ({ start 0 [(0, 0x11), (2, 0x03)] with zf := true } : State).fetch = .jz 0x0300 ∧
    (start 0 [(0, 0x12), (2, 0x03)]).fetch = .jnz 0x0300 := by decide +kernel
theorem test_witness_PokeWritesOneCell :
    0x2FF < State.reset.cfg.memLen ∧ State.reset.cfg.memLen ≤ 0x300 := by decide
theorem test_witness_LoadProgramCopiesWhatFits : ∃ h : 1 < [0xAA, 0xBB, (0xCC : Byte)].length,
    0x2FE + 1 < State.reset.cfg.memLen ∧ [0xAA, 0xBB, (0xCC : Byte)][1] = 0xBB ∧ 0x2FD < 0x2FE := ⟨by decide, by decide⟩
theorem test_witness_DisplayAndScoreCellsArePlainMemory : State.reset.cfg.wf ∧ regionOf State.reset.cfg 0x100 = .framebuffer ∧
    0x200 = State.reset.cfg.scoreAddr ∧ 0x201 = State.reset.cfg.highScoreAddr := by decide
theorem test_witness_ResetLeavesTheStatedValues :
    ({ State.reset.cfg with fbWidth := 4, fbHeight := 200 } : Config).wf ∧
    ¬ ({ State.reset.cfg with fbWidth := 16, fbHeight := 0 } : Config).wf := by decide
theorem test_witness_EmptyMemorySlidesToTheEnd :
    Config.ref.opcodes.Injective ∧ Config.ref.opcodes.nop = 0 ∧ State.reset = State.constructed .ref := by decide

end Sys2Proof.Tests
end

/-! The statements about memory (20_memory.md): the byte order of an address operand, the bounds-checked access,
and the host's peek and poke. -/

namespace Sys2Proof.Machine

/-! ## The operand address (20_memory.md R36) -/

theorem State.toNat_addr16 (s : State) (p : Nat) :
    (s.addr16 p).toNat = (s.memRead (p + 1)).toNat * 256 + (s.memRead p).toNat :=
  toNat_joinBytes _ _

/-- The operand address by shift and or, as R36 writes it. -/
theorem State.toNat_addr16_eq_or (s : State) (p : Nat) :
    (s.addr16 p).toNat = (s.memRead p).toNat ||| ((s.memRead (p + 1)).toNat <<< 8) := by
  rw [State.addr16, joinBytes, BitVec.toNat_append, Nat.or_comm]

/-- The `addr16` operand that an instruction carries; those of the formats F1 and F2 carry none (R60). -/
def addrOperand : Instr → Option Addr16
  | .jmp addr | .jz addr | .jnz addr | .call addr | .staAbs addr | .ldaAbs addr => some addr
  | _ => none

theorem addrOperand_instr (k : Mnemonic) (imm : Byte) (addr : Addr16) :
    addrOperand (k.instr imm addr) = if k.format = .f3 then some addr else none := by
  cases k <;> rfl

/-- An address operand that the fetch decodes is the one at PC + 1. -/
theorem State.eq_addr16_of_addrOperand_fetch {s : State} {addr : Addr16}
    (h : addrOperand s.fetch = some addr) : addr = s.addr16 (s.pc + 1) := by
  cases hk : s.cfg.opcodes.lookup (s.memRead s.pc) with
  | none => simp [State.fetch_of_lookup_none hk, addrOperand] at h
  | some k =>
    rw [State.fetch_of_lookup hk, addrOperand_instr, Option.ite_none_right_eq_some] at h
    exact (Option.some.inj h.2).symm

/-- Settles O48: the joined bytes are the or and the sum, and each 3-byte instruction carries its operand. -/
theorem operandAddressIsLittleEndian : Obligations.OperandAddressIsLittleEndian := by
  refine ⟨fun s p => ⟨s.toNat_addr16_eq_or p, s.toNat_addr16 p⟩, fun s addr h => ?_⟩
  apply State.eq_addr16_of_addrOperand_fetch
  rcases h with h | h | h | h | h | h <;> rw [h] <;> rfl

/-! ## Bounds-checked access (20_memory.md R31, R32) -/

/-- A read in range (R31). -/
theorem State.memRead_of_lt {s : State} {addr : Nat} (h : addr < s.cfg.memLen) :
    s.memRead addr = s.mem.byteAt addr :=
  if_pos h

/-- A write beyond memory (R32). -/
theorem State.memWrite_of_memLen_le {s : State} {addr : Nat} (v : Byte) (h : s.cfg.memLen ≤ addr) :
    s.memWrite addr v = s := by
  simp [State.memWrite, Nat.not_lt.2 h]

/-- What a write in range does to every cell of the array, in range or not (R32). -/
theorem State.byteAt_memWrite_of_lt {s : State} {addr : Nat} (v : Byte) (h : addr < s.cfg.memLen) (x : Nat) :
    (s.memWrite addr v).mem.byteAt x = if x = addr then v else s.mem.byteAt x := by
  simp only [State.memWrite, if_pos h, MemoryLaws.byteAt_put]

/-- Settles O47, by the two cases of the bounds check for the read and for the write. -/
theorem readsAndWritesAreBoundsChecked : Obligations.ReadsAndWritesAreBoundsChecked := by
  refine fun s addr v => ⟨State.memRead_of_lt, s.memRead_of_memLen_le, fun h => ⟨?_, fun x hx => ?_, rfl⟩,
    State.memWrite_of_memLen_le v⟩
  · rw [State.byteAt_memWrite_of_lt v h, if_pos rfl]
  · rw [State.byteAt_memWrite_of_lt v h, if_neg hx]

/-! ## peek and poke (20_memory.md R51) -/

/-- What a poke does to every peek. -/
theorem State.peek_poke (s : State) (addr : Nat) (v : Byte) (x : Nat) :
    (s.poke addr v).peek x = if x = addr ∧ addr < s.cfg.memLen then v else s.peek x :=
  s.memRead_memWrite addr v x

/-- Settles O54: peek and poke are the bounds-checked read and write. -/
theorem pokeWritesOneCell : Obligations.PokeWritesOneCell := by
  refine fun s addr v => ⟨rfl, rfl, fun h => congrArg HostReply.byte (s.memRead_of_memLen_le h),
    s.poke addr v, rfl, rfl, fun h => ?_, fun x hx => ?_, State.memWrite_of_memLen_le v⟩
  · rw [State.peek_poke, if_pos ⟨rfl, h⟩]
  · rw [State.peek_poke, if_neg fun hxa => hx hxa.1]

end Sys2Proof.Machine

/-! The statements about encoding (30_encoding.md) that speak of one opcode byte: its length (R61) and the
undefined opcodes (R67). -/

namespace Sys2Proof

/-! ## What the opcode byte determines (30_encoding.md R61) -/

theorem Instr.length_congr {i j : Instr} (h : i.mnemonic = j.mnemonic) : i.length = j.length := by
  rw [Instr.length, Instr.length, h]

/-- A decoded instruction has the mnemonic that the map gives its opcode byte, whatever follows that byte. -/
theorem mnemonic_of_decode {m : OpcodeMap} {op : Byte} {xs rest : List Byte} {i : Instr}
    (h : decode m (op :: xs) = .ok (i, rest)) : i.mnemonic = m.lookup op := by
  obtain ⟨hn, rfl, -⟩ | ⟨k, imm, addr, hk, rfl, -⟩ := decode_cons_ok.1 h
  · exact hn.symm
  · rw [Mnemonic.mnemonic_instr, hk]

/-- The decoder consumes as many bytes as the instruction is long. -/
theorem length_of_decode {m : OpcodeMap} {op : Byte} {xs rest : List Byte} {i : Instr}
    (h : decode m (op :: xs) = .ok (i, rest)) : (op :: xs).length = i.length + rest.length := by
  obtain ⟨-, rfl, rfl⟩ | ⟨k, imm, addr, -, rfl, rfl⟩ := decode_cons_ok.1 h
  · exact Nat.add_comm _ _
  · rw [Mnemonic.length_instr, ← length_operandBytes k.format imm addr, List.length_cons, List.length_append]
    omega

/-- Two bytes hold the operand of any format. -/
theorem exists_eq_operandBytes_append (f : Format) : ∀ {xs : List Byte}, 2 ≤ xs.length →
    ∃ imm addr rest, xs = operandBytes f imm addr ++ rest
  | lo :: hi :: tail, _ => by
    cases f with
    | f1 => exact ⟨0, 0, lo :: hi :: tail, rfl⟩
    | f2 => exact ⟨lo, 0, hi :: tail, rfl⟩
    | f3 => exact ⟨0, joinBytes hi lo, tail, by simp [operandBytes]⟩

/-- The byte of a mnemonic, with two bytes after it, decodes to an instruction of that mnemonic. -/
theorem exists_decode_byteOf {m : OpcodeMap} (hm : m.Injective) (k : Mnemonic) {xs : List Byte}
    (h : 2 ≤ xs.length) :
    ∃ imm addr rest, decode m (m.byteOf k :: xs) = .ok (k.instr imm addr, rest) := by
  obtain ⟨imm, addr, rest, hxs⟩ := exists_eq_operandBytes_append k.format h
  exact ⟨imm, addr, rest, decode_cons_ok.2 (.inr ⟨k, imm, addr, OpcodeMap.lookup_byteOf hm k, rfl, hxs⟩)⟩

/-! ## The undefined opcodes (30_encoding.md R67) -/

/-- The decoder answers an undefined opcode exactly at a byte that the map gives no mnemonic. -/
theorem decode_eq_undef {m : OpcodeMap} {op : Byte} {xs : List Byte} :
    decode m (op :: xs) = .ok (.undef op, xs) ↔ m.lookup op = none :=
  ⟨fun h => (mnemonic_of_decode h).symm, fun hn => decode_cons_ok.2 (.inl ⟨hn, rfl, rfl⟩)⟩

theorem OpcodeMap.lookup_eq_none_iff_forall {m : OpcodeMap} {b : Byte} :
    m.lookup b = none ↔ ∀ k, m.byteOf k ≠ b := by
  simp [OpcodeMap.lookup_eq_none, OpcodeMap.toList_eq_map, Mnemonic.mem_all]

end Sys2Proof

namespace Sys2Proof.Machine

/-- The byte at PC alone gives the mnemonic of the fetched instruction: there is no decoding mode (R61). -/
theorem State.mnemonic_fetch (s : State) : s.fetch.mnemonic = s.cfg.opcodes.lookup (s.memRead s.pc) := by
  cases hk : s.cfg.opcodes.lookup (s.memRead s.pc) with
  | none => rw [State.fetch_of_lookup_none hk]; rfl
  | some k => rw [State.fetch_of_lookup hk, Mnemonic.mnemonic_instr]

/-- Settles O3: the mnemonic is the one the map gives the byte, in the decoder and in the fetch, and it fixes
the length, which is the number of bytes consumed. -/
theorem opcodeByteAloneGivesTheLength : Obligations.OpcodeByteAloneGivesTheLength := by
  refine fun m op => ⟨fun xs ys xs' ys' i j hi hj => ?_, fun hop xs => ?_, fun hm k xs hxs => ?_,
    fun s t hc hb => ?_⟩
  · have hij : i.mnemonic = j.mnemonic := by rw [mnemonic_of_decode hi, mnemonic_of_decode hj]
    exact ⟨hij, Instr.length_congr hij, length_of_decode hi⟩
  · exact ⟨.undef op, decode_eq_undef.2 (OpcodeMap.lookup_eq_none.2 hop), rfl⟩
  · obtain ⟨imm, addr, rest, hd⟩ := exists_decode_byteOf hm k hxs
    refine ⟨_, rest, hd, k.mnemonic_instr imm addr, length_of_decode hd, ?_⟩
    rw [Mnemonic.length_instr]
    cases k <;> rfl
  · have hst : s.fetch.mnemonic = t.fetch.mnemonic := by rw [s.mnemonic_fetch, t.mnemonic_fetch, hc, hb]
    exact ⟨hst, Instr.length_congr hst⟩

/-- NOP only advances PC (R82). -/
theorem exec_nop (s : State) : exec .nop s = .next (s.advance 1) := rfl

/-- An undefined opcode only advances PC (R83). -/
theorem exec_undef (op : Byte) (s : State) : exec (.undef op) s = .next (s.advance 1) := rfl

/-- Settles O4: a byte decodes to an undefined opcode exactly when reading the map backwards finds no mnemonic,
and NOP and the undefined opcode share one effect. -/
theorem unassignedBytesAreNoOps : Obligations.UnassignedBytesAreNoOps := by
  refine ⟨fun m b rest => ?_, fun b s => ⟨exec_undef b s, ?_⟩⟩
  · rw [decode_eq_undef, OpcodeMap.lookup_eq_none_iff_forall]
  · rw [exec_undef, exec_nop]

end Sys2Proof.Machine

/-! The statement about NOP and the undefined opcodes as steps (40_step_and_nop.md R82, R83). -/

namespace Sys2Proof.Machine

/-- The out-of-bounds stop (R80). -/
theorem step_of_memLen_le {s : State} (hr : s.running = true) (hp : s.cfg.memLen ≤ s.pc) :
    step s = .next s.stop := by
  simp [step, State.cycle, hr, hp]

/-- A step at the byte of NOP or at an unassigned byte counts one step and advances PC by 1 (R83). -/
theorem step_of_nop_or_unassigned {s : State} (hs : s.Fetches) (hm : s.cfg.opcodes.Injective)
    (h : s.memRead s.pc = s.cfg.opcodes.nop ∨ s.memRead s.pc ∉ s.cfg.opcodes.toList) :
    step s = .next (s.countStep.advance 1) := by
  obtain ⟨hr, hp⟩ := hs
  rw [step_of_fetches hr hp]
  rcases h with hnop | hun
  · have hf : s.fetch = .nop := State.fetch_of_byteOf (k := .nop) hm hnop
    rw [hf, exec_nop]
  · rw [State.fetch_of_lookup_none (OpcodeMap.lookup_eq_none.2 hun), exec_undef]

/-- Settles O29: NOP and an undefined opcode both advance PC by 1, so does the step that fetches either, and
from the last cell the new PC is out of bounds. -/
theorem nopAndUndefinedOnlyAdvance : Obligations.NopAndUndefinedOnlyAdvance := by
  refine ⟨exec_nop, exec_undef, fun _ _ => ⟨rfl, rfl⟩, fun _ => step_of_nop_or_unassigned,
    fun s hr hpc => ⟨s.advance 1, exec_nop s, hpc, step_of_memLen_le hr ?_⟩⟩
  exact hpc.ge

end Sys2Proof.Machine

/-! The statements about the two stores (41_load_store.md R94, R97). -/

namespace Sys2Proof.Machine

/-! ## What the two stores share -/

/-- Register A to the cell `addr`, then PC past an instruction of `n` bytes: STA_ABS and STA_IDX differ only in
where `addr` comes from and in their length. -/
def State.storeA (s : State) (addr n : Nat) : State := (s.memWrite addr s.a).advance n

/-- STA_ABS stores at its operand (R94). -/
theorem exec_staAbs (addr : Addr16) (s : State) : exec (.staAbs addr) s = .next (s.storeA addr.toNat 3) := rfl

/-- STA_IDX stores at the exact sum of B and C (R97, R37). -/
theorem exec_staIdx (s : State) : exec .staIdx s = .next (s.storeA (s.b.toNat + s.c.toNat) 1) := rfl

/-- A store writes memory and PC and no other field. -/
theorem State.storeA_eq (s : State) (addr n : Nat) :
    s.storeA addr n = { s with mem := (s.storeA addr n).mem, pc := s.pc + n } := rfl

/-- What a store does to every read. -/
theorem State.memRead_storeA (s : State) (addr n x : Nat) :
    (s.storeA addr n).memRead x = if x = addr ∧ addr < s.cfg.memLen then s.a else s.memRead x :=
  s.memRead_memWrite addr s.a x

theorem State.memRead_storeA_same {s : State} {addr : Nat} (n : Nat) (h : addr < s.cfg.memLen) :
    (s.storeA addr n).memRead addr = s.a := by
  rw [State.memRead_storeA, if_pos ⟨rfl, h⟩]

theorem State.memRead_storeA_of_ne (s : State) {addr x : Nat} (n : Nat) (h : x ≠ addr) :
    (s.storeA addr n).memRead x = s.memRead x := by
  rw [State.memRead_storeA, if_neg fun hx => h hx.1]

/-- A store beyond memory is ignored. -/
theorem State.storeA_mem_of_memLen_le {s : State} {addr : Nat} (n : Nat) (h : s.cfg.memLen ≤ addr) :
    (s.storeA addr n).mem = s.mem := by
  rw [State.storeA, State.advance_mem, State.memWrite_of_memLen_le s.a h]

/-! ## The stores as steps -/

/-- A step at the byte of a mnemonic executes that mnemonic with the operand in memory before the step (R80,
R81). -/
theorem step_of_byteOf {s : State} {k : Mnemonic} (hs : s.Fetches) (hm : s.cfg.opcodes.Injective)
    (h : s.memRead s.pc = s.cfg.opcodes.byteOf k) :
    step s = exec (k.instr s.imm8 (s.addr16 (s.pc + 1))) s.countStep := by
  obtain ⟨hr, hp⟩ := hs
  rw [step_of_fetches hr hp, State.fetch_of_byteOf hm h]

/-- The stored-to address is the operand as it was fetched, even if the store overwrites it. -/
theorem step_of_staAbs {s : State} (hs : s.Fetches) (hm : s.cfg.opcodes.Injective)
    (h : s.memRead s.pc = s.cfg.opcodes.staAbs) :
    step s = .next (s.countStep.storeA (s.addr16 (s.pc + 1)).toNat 3) :=
  (step_of_byteOf (k := .staAbs) hs hm h).trans (exec_staAbs _ _)

theorem step_of_staIdx {s : State} (hs : s.Fetches) (hm : s.cfg.opcodes.Injective)
    (h : s.memRead s.pc = s.cfg.opcodes.staIdx) :
    step s = .next (s.countStep.storeA (s.b.toNat + s.c.toNat) 1) :=
  (step_of_byteOf (k := .staIdx) hs hm h).trans (exec_staIdx _)

/-- Settles O31: the store at the operand, executed on its own and as the step that fetches it. -/
theorem staAbsStoresTheAccumulator : Obligations.StaAbsStoresTheAccumulator := by
  refine fun addr s => ⟨_, exec_staAbs addr s, s.storeA_eq _ 3, State.memRead_storeA_same 3,
    fun x => s.memRead_storeA_of_ne 3, State.storeA_mem_of_memLen_le 3, fun hs hm hop haddr => ?_, fun _ => rfl⟩
  subst haddr
  exact ⟨_, step_of_staAbs hs hm hop, s.countStep.storeA_eq _ 3, State.memRead_storeA_same (s := s.countStep) 3,
    fun x => s.countStep.memRead_storeA_of_ne 3⟩

/-- Settles O34: the store at B + C, executed on its own and as the step that fetches it. -/
theorem staIdxStoresAtTheNineBitSum : Obligations.StaIdxStoresAtTheNineBitSum := by
  refine fun s => ⟨_, exec_staIdx s, s.storeA_eq _ 1, State.memRead_storeA_same 1,
    fun x => s.memRead_storeA_of_ne 1, State.storeA_mem_of_memLen_le 1, fun hs hm hop => ?_, fun _ => rfl⟩
  exact ⟨_, step_of_staIdx hs hm hop, s.countStep.storeA_eq _ 1, State.memRead_storeA_same (s := s.countStep) 1,
    fun x => s.countStep.memRead_storeA_of_ne 1⟩

end Sys2Proof.Machine

/-! The statements about arithmetic, logic and compare (42_alu.md R100 to R108). -/

namespace Sys2Proof.Machine

/-! ## Each instruction as the result it hands to the shared tail -/

/-- ADD (R100): the carry is computed from the old operands, before A takes the sum. -/
theorem exec_add (s : State) :
    exec .add s = .next ((s.setCarry (addCarry s.a s.b)).finishAlu (s.a + s.b)) := rfl

/-- SUB (R101): the borrow is computed from the old operands, before A takes the difference. -/
theorem exec_sub (s : State) :
    exec .sub s = .next ((s.setCarry (subBorrow s.a s.b)).finishAlu (s.a - s.b)) := rfl

theorem exec_and (s : State) : exec .and s = .next (s.finishAlu (s.a &&& s.b)) := rfl

theorem exec_or (s : State) : exec .or s = .next (s.finishAlu (s.a ||| s.b)) := rfl

theorem exec_inc (s : State) : exec .inc s = .next (s.finishAlu (s.a + 1)) := rfl

theorem exec_dec (s : State) : exec .dec s = .next (s.finishAlu (s.a - 1)) := rfl

/-- CMP does not go through the shared tail: it writes no result (R106). -/
theorem exec_cmp (s : State) : exec .cmp s = .next ((s.setZero (equalFlag s.a s.b)).advance 1) := rfl

/-! ## The shared tail (R108) -/

section
variable (s : State) (r : Byte)

/-- ZF follows the result, whatever the operation was. -/
@[simp] theorem State.finishAlu_zf_eq_true : (s.finishAlu r).zf = true ↔ r.toNat = 0 :=
  zeroFlag_eq_true r

/-- The tail writes A, ZF and PC and no other field. -/
theorem State.finishAlu_frame :
    s.finishAlu r = { s with a := (s.finishAlu r).a, zf := (s.finishAlu r).zf, pc := s.pc + 1 } := rfl

theorem State.sameBytes_finishAlu : SameBytes s (s.finishAlu r) := fun _ => rfl

/-- With a carry written first, as in ADD and SUB, CF is written too and nothing more. -/
theorem State.finishAlu_setCarry_frame (k : Bool) :
    (s.setCarry k).finishAlu r =
      { s with a := ((s.setCarry k).finishAlu r).a, zf := ((s.setCarry k).finishAlu r).zf,
               cf := ((s.setCarry k).finishAlu r).cf, pc := s.pc + 1 } := rfl

theorem State.sameBytes_finishAlu_setCarry (k : Bool) : SameBytes s ((s.setCarry k).finishAlu r) := fun _ => rfl

end

/-! ## Subtraction of bytes as numbers -/

/-- The wrapped difference is the non-negative remainder of the true one. -/
theorem toNat_sub_eq_emod (x y : Byte) : ((x - y).toNat : Int) = ((x.toNat : Int) - y.toNat) % 256 := by
  rw [BitVec.toNat_sub]
  omega

/-- The difference wraps to 0 only for equal operands, since each is below 256. -/
theorem toNat_sub_eq_zero (x y : Byte) : (x - y).toNat = 0 ↔ x.toNat = y.toNat := by
  have h := toNat_sub_eq_emod x y
  omega

/-! ## One statement per instruction (R100 to R106) -/

/-- Settles O35: the sum as a number, with the carry and ZF of the old operands. -/
theorem addWrapsAndCarriesOut : Obligations.AddWrapsAndCarriesOut := by
  refine fun s => ⟨_, exec_add s, s.finishAlu_setCarry_frame _ _, s.sameBytes_finishAlu_setCarry _ _,
    BitVec.toNat_add s.a s.b, addCarry_eq_true s.a s.b, ?_, fun _ => rfl⟩
  rw [State.finishAlu_zf_eq_true, BitVec.toNat_add]

/-- Settles O36: the result is 0 exactly for equal operands, and equal operands do not borrow. -/
theorem subWrapsAndBorrows : Obligations.SubWrapsAndBorrows := by
  intro s
  have hzero : zeroFlag (s.a - s.b) = true ↔ s.a.toNat = s.b.toNat :=
    (zeroFlag_eq_true _).trans (toNat_sub_eq_zero s.a s.b)
  have hborrow : subBorrow s.a s.b = true ↔ s.a.toNat < s.b.toNat := subBorrow_eq_true s.a s.b
  refine ⟨_, exec_sub s, s.finishAlu_setCarry_frame _ _, s.sameBytes_finishAlu_setCarry _ _,
    toNat_sub_eq_emod s.a s.b, hborrow.trans ?_, hzero, State.finishAlu_zf_eq_true _ _, ?_, fun _ => rfl⟩
  · omega
  · exact fun ⟨hz, hc⟩ => (hborrow.1 hc).ne (hzero.1 hz)

/-- Settles O37: bit by bit, with the disjunction 0 only if both operands are. -/
theorem andOrCombineBitwise : Obligations.AndOrCombineBitwise := by
  refine ⟨fun s => ⟨_, exec_and s, s.finishAlu_frame _, s.sameBytes_finishAlu _, fun k _ => BitVec.getLsbD_and,
      s.finishAlu_zf_eq_true _⟩,
    fun s => ⟨_, exec_or s, s.finishAlu_frame _, s.sameBytes_finishAlu _, fun k _ => BitVec.getLsbD_or,
      s.finishAlu_zf_eq_true _, ?_⟩,
    fun _ => ⟨rfl, rfl⟩⟩
  rw [State.finishAlu_zf_eq_true, BitVec.toNat_or, Nat.or_eq_zero_iff]

/-- Settles O38: INC is the sum with 1 and DEC the difference from 1, so each has one operand that gives 0. -/
theorem incDecWrapAndKeepCarry : Obligations.IncDecWrapAndKeepCarry := by
  refine ⟨fun s => ⟨_, exec_inc s, s.finishAlu_frame _, s.sameBytes_finishAlu _, BitVec.toNat_add s.a 1,
      s.finishAlu_zf_eq_true _, ?_⟩,
    fun s => ⟨_, exec_dec s, s.finishAlu_frame _, s.sameBytes_finishAlu _, toNat_sub_eq_emod s.a 1,
      s.finishAlu_zf_eq_true _, (s.finishAlu_zf_eq_true _).trans (toNat_sub_eq_zero s.a 1)⟩,
    fun _ => ⟨rfl, rfl⟩⟩
  have hsum : (s.a + 1).toNat = (s.a.toNat + 1) % 256 := BitVec.toNat_add s.a 1
  rw [State.finishAlu_zf_eq_true, hsum]
  omega

/-- Settles O39: the one flag that CMP writes says that the operands are equal. -/
theorem cmpComparesForEquality : Obligations.CmpComparesForEquality :=
  fun s => ⟨_, exec_cmp s, rfl, fun _ => rfl, equalFlag_eq_true s.a s.b, fun _ => rfl⟩

/-! ## The flags of all of them together (R108) -/

/-- The six instructions with a result all end in the shared tail. -/
theorem exec_eq_finishAlu {i : Instr} (hi : i ∈ [Instr.add, .sub, .and, .or, .inc, .dec]) (s : State) :
    ∃ (u : State) (r : Byte), exec i s = .next (u.finishAlu r) := by
  simp only [List.mem_cons, List.not_mem_nil, or_false] at hi
  rcases hi with rfl | rfl | rfl | rfl | rfl | rfl
  · exact ⟨_, _, exec_add s⟩
  · exact ⟨_, _, exec_sub s⟩
  · exact ⟨_, _, exec_and s⟩
  · exact ⟨_, _, exec_or s⟩
  · exact ⟨_, _, exec_inc s⟩
  · exact ⟨_, _, exec_dec s⟩

/-- Every instruction completes with a next state (R140). -/
theorem exists_exec_eq_next (i : Instr) (s : State) : ∃ t, exec i s = .next t := by
  cases i <;> exact ⟨_, rfl⟩

/-- No instruction but ADD and SUB writes CF (R16). -/
theorem cf_of_exec {i : Instr} {s t : State} (hadd : i ≠ .add) (hsub : i ≠ .sub) (h : exec i s = .next t) :
    t.cf = s.cf := by
  cases i
  case add => exact absurd rfl hadd
  case sub => exact absurd rfl hsub
  all_goals cases h; rfl

/-- Settles O23: the shared tail gives ZF, and the five that keep CF are neither ADD nor SUB. -/
theorem zeroFlagFollowsTheNewAccumulator : Obligations.ZeroFlagFollowsTheNewAccumulator := by
  refine ⟨fun i hi s => ?_, fun i hi s => ?_, fun i s t => cf_of_exec⟩
  · obtain ⟨u, r, h⟩ := exec_eq_finishAlu hi s
    exact ⟨_, h, u.finishAlu_zf_eq_true r⟩
  · have hne : i ≠ .add ∧ i ≠ .sub := by
      constructor <;> rintro rfl <;> simp at hi
    obtain ⟨t, h⟩ := exists_exec_eq_next i s
    exact ⟨t, h, cf_of_exec hne.1 hne.2 h⟩

end Sys2Proof.Machine

/-! The statements about the jumps and the return (43_control.md R110 to R112, R114). -/

namespace Sys2Proof.Machine

/-! ## Each transfer as the operations it is made of -/

/-- JMP is the bare transfer (R110). -/
theorem exec_jmp (addr : Addr16) (s : State) : exec (.jmp addr) s = .next (s.jump addr) := rfl

/-- JZ branches on ZF (R111). -/
theorem exec_jz (addr : Addr16) (s : State) : exec (.jz addr) s = .next (s.branch s.zf addr) := rfl

/-- JNZ branches on the inverse of ZF (R112). -/
theorem exec_jnz (addr : Addr16) (s : State) : exec (.jnz addr) s = .next (s.branch (!s.zf) addr) := rfl

/-- RET transfers to the popped address (R114). -/
theorem exec_ret (s : State) : exec .ret s = .next (s.pop16.2.jump s.pop16.1) := rfl

/-! ## The transfer to an absolute address (R110, R115) -/

/-- A transfer to PC itself leaves the state as it is. -/
theorem State.jump_eq_self {s : State} {addr : Addr16} (h : addr.toNat = s.pc) : s.jump addr = s := by
  rw [State.jump, h]

/-- The step after a transfer beyond memory is the out-of-bounds stop. -/
theorem step_jump_of_memLen_le {s : State} {addr : Addr16} (hr : s.running = true)
    (h : s.cfg.memLen ≤ addr.toNat) : step (s.jump addr) = .next (s.jump addr).stop :=
  step_of_memLen_le (s := s.jump addr) hr h

/-- A step at the byte of JMP goes to the operand in memory (R36, R80). -/
theorem step_of_jmp {s : State} (hs : s.Fetches) (hm : s.cfg.opcodes.Injective)
    (h : s.memRead s.pc = s.cfg.opcodes.jmp) :
    step s = .next (s.countStep.jump (s.addr16 (s.pc + 1))) :=
  (step_of_byteOf (k := .jmp) hs hm h).trans (exec_jmp _ _)

/-- Settles O40: the transfer on its own, to PC itself, beyond memory, and as the step that fetches it. -/
theorem jmpTakesTheAbsoluteAddress : Obligations.JmpTakesTheAbsoluteAddress :=
  fun addr s => ⟨exec_jmp addr s, fun h => (exec_jmp addr s).trans (congrArg _ (State.jump_eq_self h)),
    step_jump_of_memLen_le, step_of_jmp, fun _ => rfl⟩

/-! ## The return (20_memory.md R39) -/

/-- The popped address as a number, high byte first. -/
theorem State.toNat_pop16 (s : State) :
    s.pop16.1.toNat = (s.memRead ((s.sp.toNat + 1) % 256)).toNat * 256 +
      (s.memRead ((s.sp.toNat + 2) % 256)).toNat := by
  have hhi : (s.sp + 1).toNat = (s.sp.toNat + 1) % 256 := BitVec.toNat_add s.sp 1
  have hlo : (s.sp + 1 + 1).toNat = (s.sp.toNat + 2) % 256 := by bv_omega
  rw [State.pop16_value, toNat_joinBytes, hhi, hlo]

/-- A pop moves SP up by two modulo 256. -/
theorem State.toNat_pop16_sp (s : State) : s.pop16.2.sp.toNat = (s.sp.toNat + 2) % 256 := by
  rw [State.pop16_sp]
  bv_omega

/-- Settles O43: the pop gives the target and the new SP, and a target beyond memory stops the next step. -/
theorem retPopsTheReturnAddress : Obligations.RetPopsTheReturnAddress :=
  fun s => ⟨_, exec_ret s, rfl, fun _ => rfl, s.toNat_pop16, s.toNat_pop16_sp,
    step_jump_of_memLen_le (s := s.pop16.2), fun _ => rfl⟩

/-! ## The conditional transfers (R111, R112) -/

theorem State.branch_taken (s : State) {taken : Bool} (addr : Addr16) (h : taken = true) :
    s.branch taken addr = s.jump addr := by
  rw [h]; rfl

theorem State.branch_not_taken (s : State) {taken : Bool} (addr : Addr16) (h : taken = false) :
    s.branch taken addr = s.advance 3 := by
  rw [h]; rfl

/-- Settles O41, by the two values of ZF: each selects one way out of JZ and the other way out of JNZ. -/
theorem conditionalJumpsFollowTheZeroFlag : Obligations.ConditionalJumpsFollowTheZeroFlag := by
  refine fun addr s => ⟨fun h => ?_, fun h => ?_, State.constructed_zf, fun _ => ⟨rfl, rfl⟩⟩
  · exact ⟨(exec_jz addr s).trans (congrArg _ (s.branch_taken addr h)),
      (exec_jnz addr s).trans (congrArg _ (s.branch_not_taken addr (congrArg not h)))⟩
  · exact ⟨(exec_jz addr s).trans (congrArg _ (s.branch_not_taken addr h)),
      (exec_jnz addr s).trans (congrArg _ (s.branch_taken addr (congrArg not h)))⟩

end Sys2Proof.Machine

/-! The statement about the end of a run (70_reset_and_hazards.md R173). -/

namespace Sys2Proof.Machine

/-- HALT is the bare stop (R131). -/
theorem exec_halt (s : State) : exec .halt s = .next s.stop := rfl

/-- No instruction but HALT writes running (R17). -/
theorem running_of_exec {i : Instr} {s t : State} (hhalt : i ≠ .halt) (h : exec i s = .next t) :
    t.running = s.running := by
  cases i
  case halt => exact absurd rfl hhalt
  all_goals cases h; rfl

/-- Of the instructions, HALT and no other ends a run (R173). -/
theorem running_eq_false_iff_of_exec {i : Instr} {s t : State} (hr : s.running = true)
    (h : exec i s = .next t) : t.running = false ↔ i = .halt := by
  refine ⟨fun ht => by_contra fun hhalt => ?_, ?_⟩
  · exact Bool.eq_false_iff.1 ht ((running_of_exec hhalt h).trans hr)
  · rintro rfl
    cases (exec_halt s).symm.trans h
    exact s.stop_running

/-- A step from a stopped state changes nothing (R80). -/
theorem step_of_not_running {s : State} (hr : s.running = false) : step s = .next s := by
  simp [step, State.cycle, hr]

/-- Settles O12, by the check of PC against MEM_LEN: beyond it the step is the stop, and below it the step ends
the run exactly when the instruction that it executes is HALT. -/
theorem runEndsInExactlyTwoWays : Obligations.RunEndsInExactlyTwoWays := by
  refine ⟨fun s hr => ?_, fun s => step_of_not_running⟩
  rcases Nat.lt_or_ge s.pc s.cfg.memLen with hlt | hge
  · obtain ⟨t, ht⟩ := exists_exec_eq_next s.fetch s.countStep
    refine ⟨t, (step_of_fetches hr hlt).trans ht, ?_⟩
    rw [running_eq_false_iff_of_exec (s := s.countStep) hr ht]
    exact ⟨fun hf => .inr ⟨hlt, hf⟩, fun h => (h.resolve_left (Nat.not_le.2 hlt)).2⟩
  · exact ⟨s.stop, step_of_memLen_le hr hge, fun _ => .inl hge, fun _ => s.stop_running⟩

end Sys2Proof.Machine

/-! The statements about decoding and encoding as inverse of each other (30_encoding.md sections 1 to 4). -/

namespace Sys2Proof

/-- An undefined opcode is well-formed exactly when the map gives its byte no mnemonic (R67). -/
theorem Instr.wellFormed_undef_iff {m : OpcodeMap} {op : Byte} :
    (Instr.undef op).WellFormed m ↔ m.lookup op = none := by
  rw [OpcodeMap.lookup_eq_none]
  exact decide_eq_true_iff

/-- Settles O1: the opcode byte leads back to its mnemonic, and the operand bytes of its format to the operand. -/
theorem decodeOfEncodeIsTheInstruction : Obligations.DecodeOfEncodeIsTheInstruction := by
  intro m i rest hm hi
  obtain ⟨op, rfl⟩ | ⟨k, imm, addr, rfl⟩ := i.eq_instr
  · exact decode_eq_undef.2 (Instr.wellFormed_undef_iff.1 hi)
  · rw [encode_instr, List.cons_append]
    exact decode_cons_ok.2 (.inr ⟨k, imm, addr, OpcodeMap.lookup_byteOf hm k, rfl, rfl⟩)

/-- Settles O2, by the two things the decoder accepts: an unassigned byte, or an assigned one with its operand. -/
theorem encodeOfDecodeIsTheBytes : Obligations.EncodeOfDecodeIsTheBytes := by
  intro m bytes rest i h
  cases bytes with
  | nil => exact absurd h nofun
  | cons op xs =>
    obtain ⟨hn, rfl, rfl⟩ | ⟨k, imm, addr, hk, rfl, rfl⟩ := decode_cons_ok.1 h
    · exact ⟨Instr.wellFormed_undef_iff.2 hn, rfl⟩
    · exact ⟨Mnemonic.wellFormed_instr m k imm addr, by
        rw [encode_instr, OpcodeMap.byteOf_of_lookup hk, List.cons_append]⟩

/-! ## Lengths (30_encoding.md R60, R61) -/

theorem length_encode (m : OpcodeMap) (i : Instr) : (encode m i).length = i.length := by
  obtain ⟨op, rfl⟩ | ⟨k, imm, addr, rfl⟩ := i.eq_instr
  · rfl
  · rw [encode_instr, List.length_cons, length_operandBytes, Mnemonic.length_instr]

theorem Instr.length_le_three (i : Instr) : i.length ≤ 3 := by
  obtain ⟨op, rfl⟩ | ⟨k, imm, addr, rfl⟩ := i.eq_instr
  · exact Nat.le_add_left 1 2
  · rw [Mnemonic.length_instr]
    cases k.format <;> decide

/-! ## How many bytes are assigned (30_encoding.md sections 3 and 4) -/

/-- The 256 byte values, as the count of the undefined opcodes lists them. -/
def allBytes : List Byte := (List.range 256).map (BitVec.ofNat 8)

theorem mem_allBytes (b : Byte) : b ∈ allBytes :=
  List.mem_map.2 ⟨b.toNat, List.mem_range.2 b.isLt, by simp⟩

theorem nodup_allBytes : allBytes.Nodup := by
  refine List.Nodup.map_on (fun x hx y hy hxy => ?_) List.nodup_range
  have hmod : x % 256 = y % 256 := congrArg BitVec.toNat hxy
  rw [List.mem_range] at hx hy
  omega

theorem OpcodeMap.lookup_isSome {m : OpcodeMap} {b : Byte} : (m.lookup b).isSome = true ↔ b ∈ m.toList := by
  rw [← not_iff_not, ← OpcodeMap.lookup_eq_none, Bool.not_eq_true, Option.isSome_eq_false_iff,
    Option.isNone_iff_eq_none]

/-- The bytes with a mnemonic are those of the map, each once. -/
theorem filter_lookup_isSome_perm {m : OpcodeMap} (hm : m.Injective) :
    (allBytes.filter fun b => (m.lookup b).isSome).Perm m.toList := by
  refine (List.perm_ext_iff_of_nodup (nodup_allBytes.filter _) hm).2 fun b => ?_
  rw [List.mem_filter, OpcodeMap.lookup_isSome]
  exact and_iff_right (mem_allBytes b)

/-- Settles O5: of the 256 bytes, the assigned ones are the 29 of the map. -/
theorem undefinedOpcodesNumber227 : Obligations.UndefinedOpcodesNumber227 := by
  intro m hm
  have hsome : (allBytes.filter fun b => (m.lookup b).isSome).length = 29 :=
    (filter_lookup_isSome_perm hm).length_eq
  have hall := allBytes.length_eq_length_filter_add fun b => (m.lookup b).isSome
  simp only [Option.not_isSome, hsome] at hall
  have h256 : allBytes.length = 256 := by rw [allBytes, List.length_map, List.length_range]
  rw [h256] at hall
  exact (Nat.add_left_cancel (n := 29) hall).symm

/-- Settles O6, by evaluating the decoder on each word. -/
theorem referenceWordsDecode : Obligations.ReferenceWordsDecode := by
  refine ⟨?_, ?_, ?_, ?_, ?_, ?_, ?_, ?_, ?_, ?_⟩ <;> decide

end Sys2Proof

/-! The statements that tie the fetch of a step to the decoder (40_step_and_nop.md R80, R81). -/

namespace Sys2Proof.Machine

/-- The fetch reads the instruction that the three bytes from PC on decode to. -/
theorem State.fetch_of_decode {s : State} {i : Instr} {rest : List Byte}
    (h : decode s.cfg.opcodes s.fetchBytes = .ok (i, rest)) : s.fetch = i := by
  obtain ⟨hn, rfl, -⟩ | ⟨k, imm, addr, hk, rfl, hb⟩ := decode_cons_ok.1 h
  · exact State.fetch_of_lookup_none hn
  · rw [State.fetch_of_lookup hk]
    cases hf : k.format with
    | f1 => exact Mnemonic.instr_f1 hf _ _ _ _
    | f2 =>
      rw [hf] at hb
      obtain ⟨himm, -⟩ := List.cons.inj hb
      rw [State.imm8, himm]
      exact Mnemonic.instr_f2 hf _ _ _
    | f3 =>
      rw [hf] at hb
      obtain ⟨hlo, htail⟩ := List.cons.inj hb
      obtain ⟨hhi, -⟩ := List.cons.inj htail
      have haddr : s.addr16 (s.pc + 1) = addr := by
        rw [State.addr16, Nat.add_assoc, hlo, hhi, joinBytes_high_low]
      rw [haddr]
      exact Mnemonic.instr_f3 hf _ _ _

/-- Settles O7: the fetch of a step reads what the decoder reads. -/
theorem stepRunsTheDecodedInstruction : Obligations.StepRunsTheDecodedInstruction := by
  rintro s i rest ⟨hr, hp⟩ h
  rw [step_of_fetches hr hp, State.fetch_of_decode h]
  rfl

/-- At most three bytes that memory holds from PC on begin the bytes that the fetch reads. -/
theorem State.Holds.prefix_fetchBytes {s : State} {bytes : List Byte} (h : s.Holds s.pc bytes)
    (hlen : bytes.length ≤ 3) : bytes <+: s.fetchBytes := by
  refine List.prefix_iff_getElem.2 ⟨hlen, fun k hk => ?_⟩
  rw [← h k hk]
  match k, hk.trans_le hlen with
  | 0, _ => rfl
  | 1, _ => rfl
  | 2, _ => rfl

/-- Settles O8: the bytes that the fetch reads begin with the encoding, so they decode to the instruction. -/
theorem stepRunsWhatMemoryHolds : Obligations.StepRunsWhatMemoryHolds := by
  intro s i hm hi hs hh
  obtain ⟨rest, hrest⟩ := hh.prefix_fetchBytes ((length_encode _ i).trans_le i.length_le_three)
  refine stepRunsTheDecodedInstruction s i rest hs ?_
  rw [← hrest]
  exact decodeOfEncodeIsTheInstruction _ i rest hm hi

end Sys2Proof.Machine

/-! The statements about the loads, the copies and the two system instructions (41_load_store.md R90 to R93, R95,
R96; 44_mov.md R120 to R126; 45_system.md R130, R131). -/

namespace Sys2Proof.Machine

/-- Settles O30: an immediate load is the write of its register and PC + 2. -/
theorem immediateLoadsWriteTheirRegister : Obligations.ImmediateLoadsWriteTheirRegister :=
  fun _ _ => ⟨rfl, rfl, rfl, rfl⟩

/-- Register A from the cell `addr`, then PC past an instruction of `n` bytes: LDA_ABS and LDA_IDX differ only in
where `addr` comes from and in their length. -/
def State.loadA (s : State) (addr n : Nat) : State := (s.setReg .A (s.memRead addr)).advance n

/-- LDA_ABS loads from its operand (R95). -/
theorem exec_ldaAbs (addr : Addr16) (s : State) : exec (.ldaAbs addr) s = .next (s.loadA addr.toNat 3) := rfl

/-- LDA_IDX loads from the exact sum of B and C (R96, R37). -/
theorem exec_ldaIdx (s : State) : exec .ldaIdx s = .next (s.loadA (s.b.toNat + s.c.toNat) 1) := rfl

/-- A load writes A and PC and no other field. -/
theorem State.loadA_eq (s : State) (addr n : Nat) :
    s.loadA addr n = { s with a := (s.loadA addr n).a, pc := s.pc + n } := rfl

/-- A load writes no memory. -/
theorem State.sameBytes_loadA (s : State) (addr n : Nat) : SameBytes s (s.loadA addr n) := fun _ => rfl

theorem State.loadA_a (s : State) (addr n : Nat) : (s.loadA addr n).a = s.memRead addr := rfl

/-- Settles O32: the load from the operand. -/
theorem ldaAbsLoadsTheByte : Obligations.LdaAbsLoadsTheByte :=
  fun addr s => ⟨_, exec_ldaAbs addr s, s.loadA_eq _ 3, s.sameBytes_loadA _ 3,
    fun h => (s.loadA_a _ 3).trans (State.memRead_of_lt h),
    fun h => (s.loadA_a _ 3).trans (s.memRead_of_memLen_le h)⟩

/-- Settles O33: the load from B + C. -/
theorem ldaIdxLoadsAtTheNineBitSum : Obligations.LdaIdxLoadsAtTheNineBitSum :=
  fun s => ⟨_, exec_ldaIdx s, s.loadA_eq _ 1, s.sameBytes_loadA _ 1,
    fun h => (s.loadA_a _ 1).trans (State.memRead_of_lt h),
    fun h => (s.loadA_a _ 1).trans (s.memRead_of_memLen_le h)⟩

/-- Settles O44: a copy is the write of one register and PC + 1. -/
theorem movCopiesOneRegister : Obligations.MovCopiesOneRegister :=
  fun _ => ⟨rfl, rfl, rfl, rfl, rfl, rfl⟩

/-- INP (R130). -/
theorem exec_inp (s : State) :
    exec .inp s = .next { s with a := s.pendingInput, pendingInput := 0, pc := s.pc + 1 } := rfl

/-- Settles O45: the first INP takes the byte that the last injection left, and leaves 0 for the second. -/
theorem inpConsumesThePendingInput : Obligations.InpConsumesThePendingInput :=
  ⟨fun s => ⟨_, exec_inp s, rfl, exec_inp _⟩, fun s v w => exec_inp ((s.setPendingInput v).setPendingInput w)⟩

/-- Settles O46: the step after HALT starts in a stopped state. -/
theorem haltStopsAndKeepsEverythingElse : Obligations.HaltStopsAndKeepsEverythingElse :=
  fun s => ⟨s.stop, exec_halt s, rfl, step_of_not_running s.stop_running⟩

end Sys2Proof.Machine

/-! The statements about the step as a whole (40_step_and_nop.md R80; 60_exceptions.md R140; 10_state.md R13, R19). -/

namespace Sys2Proof.Machine

/-- Settles O9: the out-of-bounds stop. -/
theorem stepOutsideMemoryStops : Obligations.StepOutsideMemoryStops := fun _ => step_of_memLen_le

/-- Every step completes with a next state (R140). -/
theorem exists_step_eq_next (s : State) : ∃ t, step s = .next t := by
  obtain ⟨-, h⟩ | ⟨-, -, h⟩ | ⟨-, -, h⟩ := step_cases s
  · exact ⟨s, h⟩
  · exact ⟨s.stop, h⟩
  · rw [h]
    exact exists_exec_eq_next s.fetch s.countStep

/-- Settles O10: steps and instructions complete, and the two stops are next states. -/
theorem stepAlwaysAnswersANextState : Obligations.StepAlwaysAnswersANextState :=
  ⟨exists_step_eq_next, exists_exec_eq_next, stepOutsideMemoryStops, exec_halt⟩

/-- No instruction writes the step counter: the step counts before it executes (R19). -/
theorem steps_of_exec {i : Instr} {s t : State} (h : exec i s = .next t) : t.steps = s.steps := by
  cases i
  case call => cases h; simp
  all_goals cases h; rfl

/-- Settles O11: of the three cases of a step only the one that executes counts, and it counts once. -/
theorem stepCountsExecutedOpcodesOnly : Obligations.StepCountsExecutedOpcodesOnly := by
  intro s
  obtain ⟨t, ht⟩ := exists_step_eq_next s
  refine ⟨t, ht, ?_⟩
  obtain ⟨hr, h⟩ | ⟨-, hp, h⟩ | ⟨hr, hp, h⟩ := step_cases s
  · cases h.symm.trans ht
    exact ⟨fun hs => absurd hs.1 (Bool.eq_false_iff.1 hr), fun _ => rfl⟩
  · cases h.symm.trans ht
    exact ⟨fun hs => absurd hs.2 (Nat.not_lt.2 hp), fun _ => rfl⟩
  · exact ⟨fun _ => steps_of_exec (h.symm.trans ht), fun hs => absurd ⟨hr, hp⟩ hs⟩

/-- Settles O19: RET's row is the popped address and JNZ's the inverse of ZF; every other row is its own meaning. -/
theorem programCounterTable : Obligations.ProgramCounterTable := by
  intro i s
  cases i
  case ret => exact ⟨_, exec_ret s, s.toNat_pop16⟩
  case jnz addr =>
    refine ⟨_, exec_jnz addr s, ?_⟩
    cases hz : s.zf
    · exact congrArg State.pc (s.branch_taken addr rfl)
    · exact congrArg State.pc (s.branch_not_taken addr rfl)
  all_goals exact ⟨_, rfl, rfl⟩

end Sys2Proof.Machine

/-! The statements about which instructions write and read a register or a flag (10_state.md R11, R14, R16, R18,
R19). -/

namespace Sys2Proof.Machine

/-! ## The general registers (R11) -/

/-- An instruction outside R11's writers of a register leaves it as it was. -/
theorem reg_of_exec {r : Reg} {i : Instr} {s t : State} (hw : ∀ k ∈ writersOf r, i.mnemonic ≠ some k)
    (h : exec i s = .next t) : t.reg r = s.reg r := by
  cases r with
  | A =>
    cases i
    case call => cases h; simp
    case nop | ldbImm | ldcImm | lddImm | staAbs | staIdx | cmp | jmp | jz | jnz | ret | movBA | movCA | movDA | halt |
        undef => cases h; rfl
    all_goals exact absurd rfl (hw _ (by decide))
  | B =>
    cases i
    case ldbImm | movBA => exact absurd rfl (hw _ (by decide))
    case call => cases h; simp
    all_goals cases h; rfl
  | C =>
    cases i
    case ldcImm | movCA => exact absurd rfl (hw _ (by decide))
    case call => cases h; simp
    all_goals cases h; rfl
  | D =>
    cases i
    case lddImm | movDA => exact absurd rfl (hw _ (by decide))
    case call => cases h; simp
    all_goals cases h; rfl

/-- Settles O20: the frame of every instruction on the register file. -/
theorem generalRegistersHaveOnlyTheirWriters : Obligations.GeneralRegistersHaveOnlyTheirWriters :=
  fun _ _ _ _ => reg_of_exec

/-- An instruction that neither reads nor writes a register carries its value through. -/
theorem exec_setReg_of_unused {r : Reg} {i : Instr} {s t : State} (v : Byte)
    (hrw : ∀ k ∈ readersOf r ++ writersOf r, i.mnemonic ≠ some k) (h : exec i s = .next t) :
    exec i (s.setReg r v) = .next (t.setReg r v) := by
  cases r with
  | A =>
    cases i
    case nop | ldbImm | ldcImm | lddImm | jmp | jz | jnz | call | ret | halt | undef => cases h; rfl
    all_goals exact absurd rfl (hrw _ (by decide))
  | B =>
    cases i
    case add | sub | and | or | cmp | ldaIdx | staIdx | movAB | ldbImm | movBA =>
      exact absurd rfl (hrw _ (by decide))
    all_goals cases h; rfl
  | C =>
    cases i
    case ldaIdx | staIdx | movAC | ldcImm | movCA => exact absurd rfl (hrw _ (by decide))
    all_goals cases h; rfl
  | D =>
    cases i
    case movAD | lddImm | movDA => exact absurd rfl (hrw _ (by decide))
    all_goals cases h; rfl

/-- An instruction that writes a register without reading it forgets the old value. -/
theorem exec_setReg_of_overwritten {r : Reg} {i : Instr} {k : Mnemonic} (v : Byte) (s : State)
    (hr : ∀ k ∈ readersOf r, i.mnemonic ≠ some k) (hw : k ∈ writersOf r) (hk : i.mnemonic = some k) :
    exec i (s.setReg r v) = exec i s := by
  cases r with
  | A =>
    cases i
    case ldaImm | ldaAbs | ldaIdx | movAB | movAC | movAD | inp => rfl
    case nop | ldbImm | ldcImm | lddImm | jmp | jz | jnz | call | ret | halt | undef =>
      cases hk <;> exact absurd hw (by decide)
    all_goals exact absurd rfl (hr _ (by decide))
  | B =>
    cases i
    case ldbImm | movBA => rfl
    all_goals cases hk <;> exact absurd hw (by decide)
  | C =>
    cases i
    case ldcImm | movCA => rfl
    all_goals cases hk <;> exact absurd hw (by decide)
  | D =>
    cases i
    case lddImm | movDA => rfl
    all_goals cases hk <;> exact absurd hw (by decide)

/-- Settles O21: what does not read the register overwrites it or carries it through. -/
theorem generalRegistersHaveOnlyTheirReaders : Obligations.GeneralRegistersHaveOnlyTheirReaders := by
  intro r v i s hr
  obtain ⟨t, ht⟩ := exists_exec_eq_next i s
  by_cases hw : ∃ k ∈ writersOf r, i.mnemonic = some k
  · obtain ⟨k, hkw, hk⟩ := hw
    exact ⟨t, t, ht, (exec_setReg_of_overwritten v s hr hkw hk).trans ht, fun _ => rfl,
      fun hn => absurd hk (hn k hkw)⟩
  · have hn : ∀ k ∈ writersOf r, i.mnemonic ≠ some k := fun k hkw hk => hw ⟨k, hkw, hk⟩
    exact ⟨t, t.setReg r v, ht,
      exec_setReg_of_unused v (fun k hk => (List.mem_append.1 hk).elim (hr k) (hn k)) ht,
      fun he => absurd he hw, fun _ => rfl⟩

/-! ## The flags and the step counter (R16, R19) -/

/-- An instruction outside R16's writers of ZF leaves it as it was. -/
theorem zf_of_exec {i : Instr} {s t : State} (hw : ∀ k ∈ zeroWriters, i.mnemonic ≠ some k)
    (h : exec i s = .next t) : t.zf = s.zf := by
  cases i
  case add | sub | and | or | inc | dec | cmp => exact absurd rfl (hw _ (by decide))
  case call => cases h; simp
  all_goals cases h; rfl

/-- Settles O22: the frame of every instruction on ZF and on CF. -/
theorem flagsHaveOnlyTheirWriters : Obligations.FlagsHaveOnlyTheirWriters := by
  refine fun i s t h => ⟨fun hw => zf_of_exec hw h, fun hw => cf_of_exec ?_ ?_ h⟩
  · rintro rfl
    exact hw .add (by decide) rfl
  · rintro rfl
    exact hw .sub (by decide) rfl

/-- No instruction reads CF or the step counter. -/
theorem exec_with_cf_steps (i : Instr) (s : State) (k : Bool) (n : Nat) :
    ∃ t u, exec i s = .next t ∧ exec i { s with cf := k, steps := n } = .next u ∧
      u = { t with cf := u.cf, steps := u.steps } := by
  cases i <;> exact ⟨_, _, rfl, rfl, rfl⟩

/-- Settles O24: the two steps are in the same case, and both execute the same instruction if any. -/
theorem carryAndStepCountInfluenceNothing : Obligations.CarryAndStepCountInfluenceNothing := by
  intro s k n
  obtain ⟨hr, h⟩ | ⟨hr, hp, h⟩ | ⟨hr, hp, h⟩ := step_cases s
  · exact ⟨s, _, h, step_of_not_running hr, rfl⟩
  · exact ⟨s.stop, _, h, step_of_memLen_le hr hp, rfl⟩
  · obtain ⟨t, u, ht, hu, htu⟩ := exec_with_cf_steps s.fetch s.countStep k (n + 1)
    exact ⟨t, u, h.trans ht, (step_of_fetches (s := { s with cf := k, steps := n }) hr hp).trans hu, htu⟩

/-! ## The stack pointer and the pending input (R14, R18) -/

/-- Settles O25: no instruction but CALL and RET has an operation that names SP. -/
theorem onlyCallAndRetUseTheStackPointer : Obligations.OnlyCallAndRetUseTheStackPointer := by
  intro i s v hcall hret
  cases i
  case call addr => exact absurd rfl (hcall addr)
  case ret => exact absurd rfl hret
  all_goals exact ⟨_, rfl, rfl, rfl⟩

/-- Settles O26: no instruction but INP has an operation that names the pending input. -/
theorem onlyInpUsesThePendingInput : Obligations.OnlyInpUsesThePendingInput := by
  intro i s v hinp
  cases i
  case inp => exact absurd rfl hinp
  case call => exact ⟨_, rfl, by simp, rfl⟩
  all_goals exact ⟨_, rfl, rfl, rfl⟩

end Sys2Proof.Machine

/-! The statements about the invariant: the states that a step, a construction and the host's other moves leave
(10_state.md section 2, 20_memory.md section 1, 70_reset_and_hazards.md sections 1 and 3). -/

namespace Sys2Proof.Machine

/-! ## What an instruction does to the configuration, to memory and to PC -/

/-- CALL pushes the return address and transfers (R113). -/
theorem exec_call (addr : Addr16) (s : State) :
    exec (.call addr) s = .next ((s.push16 (s.pc + 3)).jump addr) := rfl

@[simp] theorem State.memRead_jump (s : State) (target : Addr16) (x : Nat) :
    (s.jump target).memRead x = s.memRead x := rfl

theorem cfg_of_exec {i : Instr} {s t : State} (h : exec i s = .next t) : t.cfg = s.cfg := by
  cases i
  case call => cases h; simp
  all_goals cases h; rfl

/-- Memory in canonical form and inside `[0, MEM_LEN)`: the part of the invariant that is about memory. -/
def State.MemInv (s : State) : Prop := s.mem.wf ∧ ∀ cell ∈ s.mem, cell.1 < s.cfg.memLen

/-- The stores and CALL write in range and keep the canonical form; no other instruction writes memory. -/
theorem memInv_of_exec {i : Instr} {s t : State} (hs : s.MemInv) (h : exec i s = .next t) : t.MemInv := by
  cases i
  case staAbs addr => cases h; exact State.memWrite_keeps addr.toNat s.a hs
  case staIdx => cases h; exact State.memWrite_keeps s.idxAddr s.a hs
  case call => cases h; simpa [State.MemInv] using State.push16_keeps (s.pc + 3) hs
  all_goals cases h; exact hs

theorem State.branch_pc_le (s : State) (taken : Bool) (addr : Addr16) :
    (s.branch taken addr).pc < 65536 ∨ (s.branch taken addr).pc ≤ s.pc + 3 := by
  cases taken
  · exact .inr le_rfl
  · exact .inl addr.isLt

/-- PC after an instruction is an absolute address or at most three more than before. -/
theorem pc_of_exec_le {i : Instr} {s t : State} (h : exec i s = .next t) : t.pc < 65536 ∨ t.pc ≤ s.pc + 3 := by
  cases i
  case jmp addr | call addr => cases h; exact .inl addr.isLt
  case jz addr => cases h; exact s.branch_pc_le s.zf addr
  case jnz addr => cases h; exact s.branch_pc_le (!s.zf) addr
  case ret => cases h; exact .inl s.pop16.1.isLt
  case halt => cases h; exact .inr (Nat.le_add_right _ 3)
  all_goals cases h; exact .inr (Nat.add_le_add_left (by decide) s.pc)

/-! ## The step -/

theorem cfg_of_step {s t : State} (h : step s = .next t) : t.cfg = s.cfg := by
  obtain ⟨-, hs⟩ | ⟨-, -, hs⟩ | ⟨-, -, hs⟩ := step_cases s
  · cases hs.symm.trans h; rfl
  · cases hs.symm.trans h; rfl
  · exact cfg_of_exec (s := s.countStep) (hs.symm.trans h)

/-- Settles O13: a step that does not execute keeps memory and PC, and one that executes starts below MEM_LEN,
which is at most 65536, and leaves PC at a 16-bit address or at most three further. -/
theorem stepKeepsTheInvariant : Obligations.StepKeepsTheInvariant := by
  intro s t hinv h
  obtain ⟨hcfg, hwf, hbound, hpc⟩ := hinv
  obtain ⟨-, hs⟩ | ⟨-, -, hs⟩ | ⟨-, hlt, hs⟩ := step_cases s
  · cases hs.symm.trans h
    exact ⟨⟨hcfg, hwf, hbound, hpc⟩, rfl⟩
  · cases hs.symm.trans h
    exact ⟨⟨hcfg, hwf, hbound, hpc⟩, rfl⟩
  · have hexec : exec s.fetch s.countStep = .next t := hs.symm.trans h
    have hc : t.cfg = s.cfg := cfg_of_exec (s := s.countStep) hexec
    obtain ⟨htwf, htbound⟩ := memInv_of_exec (s := s.countStep) ⟨hwf, hbound⟩ hexec
    have hlen : s.cfg.memLen ≤ 65536 := hcfg.2.2.1
    have htpc : t.pc < 65536 ∨ t.pc ≤ s.pc + 3 := pc_of_exec_le (s := s.countStep) hexec
    exact ⟨⟨hc ▸ hcfg, htwf, htbound, by omega⟩, hc⟩

/-! ## Construction and the host's other moves -/

/-- A constructed state has no cell listed and PC 0. -/
theorem State.constructed_inv {cfg : Config} (h : cfg.wf) : (State.constructed cfg).Inv :=
  ⟨h, ⟨List.Pairwise.nil, nofun⟩, nofun, Nat.zero_le _⟩

/-- Settles O14: reset is the construction from REF, which is legal. -/
theorem resetMeetsTheInvariant : Obligations.ResetMeetsTheInvariant :=
  ⟨State.constructed_inv (by decide), fun _ => State.constructed_inv⟩

/-- Construction answers the constructed state for parameters within R6. -/
theorem State.construct_of_wf {s : State} {w h : Nat}
    (hwf : ({ s.cfg with fbWidth := w, fbHeight := h } : Config).wf) :
    s.construct w h = .next (State.constructed { s.cfg with fbWidth := w, fbHeight := h }) :=
  if_pos hwf

/-- Construction refuses parameters outside R6 (D6). -/
theorem State.construct_of_not_wf {s : State} {w h : Nat}
    (hwf : ¬ ({ s.cfg with fbWidth := w, fbHeight := h } : Config).wf) :
    s.construct w h = .refused .configuration :=
  if_neg hwf

/-- Settles O15: construction is legal where it is not refused, the writing moves keep memory's part of the
invariant, and the rest leave what the invariant speaks of. -/
theorem hostMovesKeepTheInvariant : Obligations.HostMovesKeepTheInvariant := by
  intro s t move hstep hinv h
  obtain ⟨hcfg, hwf, hbound, hpc⟩ := hinv
  cases move with
  | construct w ht =>
    by_cases hnew : ({ s.cfg with fbWidth := w, fbHeight := ht } : Config).wf
    · cases (State.construct_of_wf hnew).symm.trans h
      exact State.constructed_inv hnew
    · cases (State.construct_of_not_wf hnew).symm.trans h
  | step => exact absurd rfl hstep
  | loadProgram bytes start =>
    cases h
    obtain ⟨htwf, htbound⟩ := State.writeBytes_keeps start bytes ⟨hwf, hbound⟩
    rw [State.loadProgram, State.writeBytes_eq]
    exact ⟨hcfg, htwf, htbound, hpc⟩
  | poke addr v =>
    cases h
    obtain ⟨htwf, htbound⟩ := State.memWrite_keeps addr v ⟨hwf, hbound⟩
    exact ⟨hcfg, htwf, htbound, hpc⟩
  | peek | setPendingInput | inspect =>
    cases h
    exact ⟨hcfg, hwf, hbound, hpc⟩

/-- Settles O16, by induction on the moves: construction establishes the invariant, and each move keeps it. -/
theorem reachableStatesMeetTheInvariant : Obligations.ReachableStatesMeetTheInvariant := by
  intro s hs
  induction hs with
  | construct hcfg => exact State.constructed_inv hcfg
  | @move s t m _ hm ih =>
    by_cases hstep : m = .step
    · subst hstep
      exact (stepKeepsTheInvariant s t ih hm).1
    · exact hostMovesKeepTheInvariant s t m hstep ih hm

/-! ## What the host's moves leave unchanged -/

/-- load_program changes memory and no other field (R52). -/
theorem State.loadProgram_eq (s : State) (bytes : List Byte) (start : Nat) :
    s.loadProgram bytes start = { s with mem := (s.loadProgram bytes start).mem } :=
  s.writeBytes_eq start bytes

/-- Settles O17: each move is one operation, on memory or on the pending input. -/
theorem hostMovesChangeOnlyTheirOwnState : Obligations.HostMovesChangeOnlyTheirOwnState :=
  fun s => ⟨fun _ => ⟨rfl, rfl⟩, ⟨rfl, rfl⟩, fun _ _ => ⟨_, rfl, rfl⟩,
    fun bytes start => ⟨_, rfl, s.loadProgram_eq bytes start⟩, fun _ => rfl⟩

/-- Settles O18: of the moves left, the step of a stopped engine changes nothing, and the others do not write
running. -/
theorem onlyConstructMakesAStoppedEngineRun : Obligations.OnlyConstructMakesAStoppedEngineRun := by
  intro s t move hr hconstruct h
  cases move with
  | construct w ht => exact absurd rfl (hconstruct w ht)
  | step =>
    cases (step_of_not_running hr).symm.trans h
    exact ⟨hr, rfl⟩
  | loadProgram bytes start =>
    cases h
    rw [State.loadProgram_eq]
    exact ⟨hr, rfl⟩
  | poke | peek | setPendingInput | inspect =>
    cases h
    exact ⟨hr, rfl⟩

theorem memRead_constructed (cfg : Config) (x : Nat) : (State.constructed cfg).memRead x = 0 :=
  ite_self 0

/-- Settles O57: the constructed state field by field, and the two answers of construct. -/
theorem resetLeavesTheStatedValues : Obligations.ResetLeavesTheStatedValues :=
  ⟨fun cfg => ⟨rfl, rfl, rfl, rfl, rfl, rfl, rfl, rfl, rfl, rfl, rfl, rfl, memRead_constructed cfg⟩,
    fun _ _ _ => ⟨State.construct_of_wf, State.construct_of_not_wf⟩, rfl⟩

end Sys2Proof.Machine

/-! The statements about the memory accesses of a step (20_memory.md R54). -/

namespace Sys2Proof.Machine

/-! ## The accesses by instruction -/

/-- The data accesses of R54's table, by the instruction that the fetch answers instead of by its mnemonic. -/
def instrAccesses (s : State) : Instr → List Access
  | .staAbs addr => [.w addr.toNat]
  | .ldaAbs addr => [.r addr.toNat]
  | .ldaIdx => [.r s.idxAddr]
  | .staIdx => [.w s.idxAddr]
  | .call _ => [.w s.sp.toNat, .w (s.sp - 1).toNat]
  | .ret => [.r (s.sp + 1).toNat, .r (s.sp + 2).toNat]
  | _ => []

section
variable (s : State)

@[simp] theorem instrAccesses_staAbs (addr : Addr16) : instrAccesses s (.staAbs addr) = [.w addr.toNat] := rfl
@[simp] theorem instrAccesses_ldaAbs (addr : Addr16) : instrAccesses s (.ldaAbs addr) = [.r addr.toNat] := rfl
@[simp] theorem instrAccesses_ldaIdx : instrAccesses s .ldaIdx = [.r s.idxAddr] := rfl
@[simp] theorem instrAccesses_staIdx : instrAccesses s .staIdx = [.w s.idxAddr] := rfl
@[simp] theorem instrAccesses_call (addr : Addr16) :
    instrAccesses s (.call addr) = [.w s.sp.toNat, .w (s.sp - 1).toNat] := rfl
@[simp] theorem instrAccesses_ret : instrAccesses s .ret = [.r (s.sp + 1).toNat, .r (s.sp + 2).toNat] := rfl
@[simp] theorem instrAccesses_undef (op : Byte) : instrAccesses s (.undef op) = [] := rfl

end

theorem dataAccesses_eq (k : Mnemonic) (s : State) (imm : Byte) :
    dataAccesses k s = instrAccesses s (k.instr imm (s.addr16 (s.pc + 1))) := by
  cases k <;> rfl

/-- The format of the instruction at PC (R60); an undefined opcode is one byte (R61). -/
def State.fetchFormat (s : State) : Format :=
  ((s.cfg.opcodes.lookup (s.memRead s.pc)).map Mnemonic.format).getD .f1

/-- A step that fetches reads its instruction and then makes the data accesses of that instruction. -/
theorem State.accesses_of_fetches {s : State} (hs : s.Fetches) :
    s.accesses = fetchAccesses s.pc s.fetchFormat ++ instrAccesses s s.fetch := by
  obtain ⟨hr, hp⟩ := hs
  rw [State.accesses, if_neg (by simp [hr, hp])]
  cases hk : s.cfg.opcodes.lookup (s.memRead s.pc) with
  | none => simp [State.fetchFormat, State.fetch_of_lookup_none hk, hk]
  | some k => simp [State.fetchFormat, State.fetch_of_lookup hk, dataAccesses_eq k s s.imm8, hk]

/-- A step that does not fetch makes no access (R80). -/
theorem State.accesses_of_not_fetches {s : State} (hs : s.running = false ∨ s.cfg.memLen ≤ s.pc) :
    s.accesses = [] :=
  if_pos hs

/-- The fetch only reads. -/
theorem w_notMem_fetchAccesses (x pc : Nat) (f : Format) : Access.w x ∉ fetchAccesses pc f := by
  cases f <;> simp [fetchAccesses]

/-- The written cells of a step that fetches are those of its instruction. -/
theorem State.w_mem_accesses_iff {s : State} (hs : s.Fetches) (x : Nat) :
    Access.w x ∈ s.accesses ↔ Access.w x ∈ instrAccesses s s.fetch := by
  rw [State.accesses_of_fetches hs, List.mem_append]
  exact or_iff_right (w_notMem_fetchAccesses x _ _)

/-! ## What an instruction writes -/

/-- A push leaves every cell but its two as it was (R38). -/
theorem State.memRead_push16_of_ne (s : State) (v : Nat) {x : Nat} (hlo : x ≠ s.sp.toNat)
    (hhi : x ≠ (s.sp - 1).toNat) : (s.push16 v).memRead x = s.memRead x := by
  rw [State.memRead_push16, if_neg hlo, if_neg hhi]

/-- A cell that an instruction does not write reads as before. -/
theorem memRead_of_exec {i : Instr} {s t : State} {x : Nat} (hx : Access.w x ∉ instrAccesses s i)
    (h : exec i s = .next t) : t.memRead x = s.memRead x := by
  cases i
  case staAbs addr =>
    cases h
    exact s.memRead_storeA_of_ne 3 fun he => hx (by simp [he])
  case staIdx =>
    cases h
    exact s.memRead_storeA_of_ne 1 fun he => hx (by simp [he, State.idxAddr])
  case call addr =>
    cases h
    rw [State.memRead_jump]
    exact s.memRead_push16_of_ne (s.pc + 3) (fun he => hx (by simp [he]))
      fun he => hx (by simp [he])
  all_goals cases h; rfl

/-- Settles O27: a step that executes writes what its instruction writes, and no other step writes. -/
theorem stepChangesOnlyTheCellsItWrites : Obligations.StepChangesOnlyTheCellsItWrites := by
  intro s
  obtain ⟨-, h⟩ | ⟨-, -, h⟩ | ⟨hr, hp, h⟩ := step_cases s
  · exact ⟨s, h, fun _ _ => rfl⟩
  · exact ⟨s.stop, h, fun _ _ => rfl⟩
  · obtain ⟨t, ht⟩ := exists_exec_eq_next s.fetch s.countStep
    refine ⟨t, h.trans ht, fun x hx => ?_⟩
    exact memRead_of_exec (s := s.countStep) (mt (State.w_mem_accesses_iff ⟨hr, hp⟩ x).2 hx) ht

/-! ## What an instruction reads

`{ s with mem := m }` is the same state with another memory. -/

/-- The fetch depends on the bytes it reads: the opcode, and the operand of the opcode's format. -/
theorem State.fetch_with_mem {s : State} {m : Memory}
    (h : ∀ x, Access.r x ∈ fetchAccesses s.pc s.fetchFormat → State.memRead { s with mem := m } x = s.memRead x) :
    State.fetch { s with mem := m } = s.fetch := by
  have hop : State.memRead { s with mem := m } s.pc = s.memRead s.pc :=
    h s.pc (by cases s.fetchFormat <;> simp [fetchAccesses])
  cases hk : s.cfg.opcodes.lookup (s.memRead s.pc) with
  | none =>
    rw [State.fetch_of_lookup_none hk,
      State.fetch_of_lookup_none (s := { s with mem := m }) ((congrArg _ hop).trans hk), hop]
  | some k =>
    rw [State.fetch_of_lookup hk, State.fetch_of_lookup (s := { s with mem := m }) ((congrArg _ hop).trans hk)]
    have hfmt : s.fetchFormat = k.format := by simp [State.fetchFormat, hk]
    rw [hfmt] at h
    cases hf : k.format with
    | f1 => exact Mnemonic.instr_f1 hf _ _ _ _
    | f2 =>
      have himm : State.imm8 { s with mem := m } = s.imm8 := h (s.pc + 1) (by simp [hf, fetchAccesses])
      rw [himm]
      exact Mnemonic.instr_f2 hf _ _ _
    | f3 =>
      have hlo : State.memRead { s with mem := m } (s.pc + 1) = s.memRead (s.pc + 1) :=
        h (s.pc + 1) (by simp [hf, fetchAccesses])
      have hhi : State.memRead { s with mem := m } (s.pc + 1 + 1) = s.memRead (s.pc + 1 + 1) :=
        h (s.pc + 2) (by simp [hf, fetchAccesses])
      have haddr : State.addr16 { s with mem := m } (s.pc + 1) = s.addr16 (s.pc + 1) := by
        rw [State.addr16, hlo, hhi, State.addr16]
      rw [haddr]
      exact Mnemonic.instr_f3 hf _ _ _

/-- A load depends on the cell it reads. -/
theorem State.loadA_with_mem {s : State} {m : Memory} {addr : Nat} (n : Nat)
    (h : State.memRead { s with mem := m } addr = s.memRead addr) :
    State.loadA { s with mem := m } addr n = { s.loadA addr n with mem := m } := by
  rw [State.loadA, h]
  rfl

/-- A pop depends on the two cells it reads. -/
theorem State.pop16_fst_with_mem {s : State} {m : Memory}
    (hhi : State.memRead { s with mem := m } (s.sp + 1).toNat = s.memRead (s.sp + 1).toNat)
    (hlo : State.memRead { s with mem := m } (s.sp + 1 + 1).toNat = s.memRead (s.sp + 1 + 1).toNat) :
    (State.pop16 { s with mem := m }).1 = s.pop16.1 := by
  rw [State.pop16_value, State.pop16_value, hhi, hlo]

/-- The cell of a store reads the same after it whatever memory was before: A in range, 0 beyond memory. -/
theorem State.memRead_storeA_with_mem (s : State) (m : Memory) (addr n : Nat) :
    (State.storeA { s with mem := m } addr n).memRead addr = (s.storeA addr n).memRead addr := by
  rcases Nat.lt_or_ge addr s.cfg.memLen with h | h
  · rw [State.memRead_storeA_same n h, State.memRead_storeA_same (s := { s with mem := m }) n h]
  · exact (State.memRead_of_memLen_le (State.storeA { s with mem := m } addr n) h).trans
      (State.memRead_of_memLen_le (s.storeA addr n) h).symm

/-- The cells of a push read the same after it whatever memory was before. -/
theorem State.memRead_push16_with_mem (s : State) (m : Memory) (v : Nat) {x : Nat}
    (hx : x = s.sp.toNat ∨ x = (s.sp - 1).toNat) :
    (State.push16 { s with mem := m } v).memRead x = (s.push16 v).memRead x := by
  rw [State.memRead_push16, State.memRead_push16]
  rcases hx with rfl | rfl <;> simp

/-- An instruction depends on memory through the cells it reads, and writes the same bytes if those are the same. -/
theorem exec_with_mem {i : Instr} {s : State} {m : Memory}
    (hr : ∀ x, Access.r x ∈ instrAccesses s i → State.memRead { s with mem := m } x = s.memRead x) :
    ∃ t u, exec i s = .next t ∧ exec i { s with mem := m } = .next u ∧ u = { t with mem := u.mem } ∧
      ∀ x, Access.w x ∈ instrAccesses s i → u.memRead x = t.memRead x := by
  cases i
  case ldaAbs addr =>
    have h := State.loadA_with_mem 3 (hr addr.toNat (by simp))
    exact ⟨_, _, exec_ldaAbs addr s, (exec_ldaAbs addr _).trans (congrArg _ h), rfl, by simp⟩
  case ldaIdx =>
    have h := State.loadA_with_mem 1 (hr s.idxAddr (by simp))
    exact ⟨_, _, exec_ldaIdx s, (exec_ldaIdx _).trans (congrArg _ h), rfl, by simp⟩
  case ret =>
    have h := State.pop16_fst_with_mem (hr (s.sp + 1).toNat (by simp))
      (hr (s.sp + 1 + 1).toNat (by simp [BitVec.add_assoc]))
    refine ⟨_, _, exec_ret s, exec_ret _, ?_, by simp⟩
    rw [h]
    rfl
  case staAbs addr =>
    refine ⟨_, _, exec_staAbs addr s, exec_staAbs addr _, rfl, fun x hx => ?_⟩
    obtain rfl : x = addr.toNat := by simpa using hx
    exact s.memRead_storeA_with_mem m addr.toNat 3
  case staIdx =>
    refine ⟨_, _, exec_staIdx s, exec_staIdx _, rfl, fun x hx => ?_⟩
    obtain rfl : x = s.idxAddr := by simpa using hx
    exact s.memRead_storeA_with_mem m s.idxAddr 1
  case call addr =>
    refine ⟨_, _, exec_call addr s, exec_call addr _, rfl, fun x hx => ?_⟩
    rw [State.memRead_jump, State.memRead_jump]
    exact s.memRead_push16_with_mem m (s.pc + 3) (by simpa using hx)
  all_goals exact ⟨_, _, rfl, rfl, rfl, fun x hx => absurd hx List.not_mem_nil⟩

/-- Settles O28: with the bytes that the fetch reads the two steps execute one instruction, and with the bytes
that it reads they end alike. -/
theorem stepDependsOnlyOnTheCellsItReads : Obligations.StepDependsOnlyOnTheCellsItReads := by
  intro s m h
  obtain ⟨hr, hs⟩ | ⟨hr, hp, hs⟩ | ⟨hr, hp, hs⟩ := step_cases s
  · refine ⟨s, _, hs, step_of_not_running hr, rfl, fun x hx => ?_⟩
    rw [State.accesses_of_not_fetches (.inl hr)] at hx
    exact absurd hx List.not_mem_nil
  · refine ⟨s.stop, _, hs, step_of_memLen_le hr hp, rfl, fun x hx => ?_⟩
    rw [State.accesses_of_not_fetches (.inr hp)] at hx
    exact absurd hx List.not_mem_nil
  · have hacc := State.accesses_of_fetches ⟨hr, hp⟩
    have hfetch : State.fetch { s with mem := m } = s.fetch :=
      State.fetch_with_mem fun x hx => h x (hacc ▸ List.mem_append_left _ hx)
    obtain ⟨t, u, ht, hu, htu, hw⟩ := exec_with_mem (i := s.fetch) (s := s.countStep) (m := m)
      fun x hx => h x (hacc ▸ List.mem_append_right _ hx)
    refine ⟨t, u, hs.trans ht, ?_, htu, fun x hx => hw x ((State.w_mem_accesses_iff ⟨hr, hp⟩ x).1 hx)⟩
    rw [step_of_fetches (s := { s with mem := m }) hr hp, hfetch]
    exact hu

end Sys2Proof.Machine

/-! The statements about the stack (20_memory.md R38 to R41; 43_control.md R113, R114). -/

namespace Sys2Proof.Machine

/-! ## One push -/

theorem toNat_lowByte_ofNat (v : Nat) : (lowByte (BitVec.ofNat 16 v)).toNat = v % 65536 % 256 := by
  rw [toNat_lowByte, BitVec.toNat_ofNat]

theorem toNat_highByte_ofNat (v : Nat) : (highByte (BitVec.ofNat 16 v)).toNat = v % 65536 / 256 := by
  rw [toNat_highByte, BitVec.toNat_ofNat]

section
variable (s : State) (v : Nat)

/-- The cell below SP modulo 256, as a number. -/
theorem State.toNat_sp_sub_one : (s.sp - 1).toNat = (s.sp.toNat + 255) % 256 := by bv_omega

theorem State.toNat_push16_sp : (s.push16 v).sp.toNat = (s.sp.toNat + 254) % 256 := by
  rw [State.push16_sp]
  bv_omega

/-- A push writes SP and memory and no other field. -/
theorem State.push16_eq : s.push16 v = { s with sp := (s.push16 v).sp, mem := (s.push16 v).mem } := rfl

theorem State.memRead_push16_low : (s.push16 v).memRead s.sp.toNat = lowByte (BitVec.ofNat 16 v) := by
  rw [State.memRead_push16, if_pos rfl]

theorem State.memRead_push16_high :
    (s.push16 v).memRead (s.sp - 1).toNat = highByte (BitVec.ofNat 16 v) := by
  rw [State.memRead_push16, if_neg (by bv_omega), if_pos rfl]

theorem State.toNat_memRead_push16_low :
    ((s.push16 v).memRead s.sp.toNat).toNat = v % 65536 % 256 := by
  rw [State.memRead_push16_low, toNat_lowByte_ofNat]

theorem State.toNat_memRead_push16_high :
    ((s.push16 v).memRead ((s.sp.toNat + 255) % 256)).toNat = v % 65536 / 256 := by
  rw [← State.toNat_sp_sub_one, State.memRead_push16_high, toNat_highByte_ofNat]

/-- A push leaves every cell but its two as it was, the addresses being numbers. -/
theorem State.memRead_push16_of_ne_mod {x : Nat} (hlo : x ≠ s.sp.toNat) (hhi : x ≠ (s.sp.toNat + 255) % 256) :
    (s.push16 v).memRead x = s.memRead x :=
  s.memRead_push16_of_ne v hlo (s.toNat_sp_sub_one ▸ hhi)

end

/-- Settles O42: CALL is the push of the return address and the transfer. -/
theorem callPushesTheReturnAddress : Obligations.CallPushesTheReturnAddress := by
  refine fun addr s => ⟨_, exec_call addr s, congrArg (·.jump addr) (s.push16_eq (s.pc + 3)), s.toNat_push16_sp _,
    ?_, ?_, fun x hlo hhi => ?_⟩
  · rw [State.memRead_jump, State.toNat_memRead_push16_low]
  · rw [State.memRead_jump, State.toNat_memRead_push16_high]
  · rw [State.memRead_jump, s.memRead_push16_of_ne_mod _ hlo hhi]

/-! ## A pop after a push -/

/-- A pop reads the value of a push where SP and the two cells are as the push left them, whatever else changed. -/
theorem State.pop16_of_pushed {s u : State} {v : Nat} (hsp : u.sp = (s.push16 v).sp)
    (hlo : u.memRead s.sp.toNat = (s.push16 v).memRead s.sp.toNat)
    (hhi : u.memRead (s.sp - 1).toNat = (s.push16 v).memRead (s.sp - 1).toNat) :
    u.pop16.1 = BitVec.ofNat 16 v ∧ u.pop16.2.sp = s.sp := by
  have h1 : u.sp + 1 = s.sp - 1 := by rw [hsp, State.push16_sp, BitVec.sub_add_cancel]
  have h2 : u.sp + 1 + 1 = s.sp := by rw [h1, BitVec.sub_add_cancel]
  refine ⟨?_, by rw [State.pop16_sp, h2]⟩
  rw [State.pop16_value, h2, h1, hlo, hhi, State.memRead_push16_low, State.memRead_push16_high,
    joinBytes_high_low]

/-- Settles O50: the pop straight after the push. -/
theorem popUndoesPush : Obligations.PopUndoesPush := by
  intro s v
  obtain ⟨hval, hsp⟩ := State.pop16_of_pushed (u := s.push16 v) rfl rfl rfl
  exact ⟨by rw [hval, BitVec.toNat_ofNat], hsp, s.toNat_memRead_push16_low v, s.toNat_memRead_push16_high v,
    s.push16_eq v, s.toNat_push16_sp v⟩

/-- Settles O51: a return address that fits in 16 bits is popped as it was pushed. -/
theorem callThenRetResumesAfterTheCall : Obligations.CallThenRetResumesAfterTheCall := by
  intro s t u addr ht hfit hsp hlo hhi
  cases (exec_call addr s).symm.trans ht
  obtain ⟨hval, hpop⟩ := State.pop16_of_pushed hsp hlo hhi
  refine ⟨_, exec_ret u, ?_, hpop⟩
  rw [State.jump_pc, hval, BitVec.toNat_ofNat]
  exact Nat.mod_eq_of_lt (by omega)

/-! ## Many pushes: SP comes round after 128 (R41) -/

theorem toNat_sp_foldl_push16 (vs : List Nat) (s : State) :
    (vs.foldl State.push16 s).sp.toNat = (s.sp.toNat + 254 * vs.length) % 256 := by
  induction vs generalizing s with
  | nil => exact (Nat.mod_eq_of_lt s.sp.isLt).symm
  | cons v vs ih =>
    rw [List.foldl_cons, ih, State.toNat_push16_sp, List.length_cons]
    omega

/-- Settles O59: 128 pushes lower SP by 256, so the next push uses the cells of the first. -/
theorem pushesWrapTheStackPage : Obligations.PushesWrapTheStackPage := by
  intro s vs v hlen
  have hsp : (vs.foldl State.push16 s).sp = s.sp := by
    apply BitVec.eq_of_toNat_eq
    rw [toNat_sp_foldl_push16, hlen]
    omega
  exact ⟨hsp, hsp ▸ State.toNat_memRead_push16_low _ v, hsp ▸ State.toNat_memRead_push16_high _ v⟩

/-! ## Nested calls (R41)

The run of O52: CALL executes in each `s n` and answers `t n`, and whatever runs from there to `s (n + 1)` leaves SP
and the stack page as they were. -/

section
variable {s t : Nat → State} {addr : Nat → Addr16}
  (hcall : ∀ n, exec (.call (addr n)) (s n) = .next (t n))
  (hrun : ∀ n, (s (n + 1)).sp = (t n).sp ∧ ∀ x < 256, (s (n + 1)).memRead x = (t n).memRead x)
include hcall

theorem eq_of_call (n : Nat) : ((s n).push16 ((s n).pc + 3)).jump (addr n) = t n :=
  Host.Outcome.next.inj ((exec_call (addr n) (s n)).symm.trans (hcall n))

theorem memRead_of_call (n x : Nat) : (t n).memRead x = ((s n).push16 ((s n).pc + 3)).memRead x := by
  rw [← eq_of_call hcall, State.memRead_jump]

theorem sp_of_call (n : Nat) : (t n).sp = ((s n).push16 ((s n).pc + 3)).sp := by
  rw [← eq_of_call hcall, State.jump_sp]

include hrun

/-- Each call lowers SP by two. -/
theorem toNat_sp_of_calls (n : Nat) : (s n).sp.toNat = ((s 0).sp.toNat + 254 * n) % 256 := by
  induction n with
  | zero => exact (Nat.mod_eq_of_lt (s 0).sp.isLt).symm
  | succ n ih =>
    rw [(hrun n).1, sp_of_call hcall, State.toNat_push16_sp, ih]
    omega

/-- Until SP comes round, the calls after call `k` do not touch its two cells. -/
theorem memRead_of_later_calls {k d x : Nat} (hd : d < 128)
    (hx : x = ((s 0).sp.toNat + 254 * k) % 256 ∨ x = ((s 0).sp.toNat + 254 * k + 255) % 256) :
    (t (k + d)).memRead x = (t k).memRead x := by
  induction d with
  | zero => rfl
  | succ d ih =>
    have hsp := toNat_sp_of_calls hcall hrun (k + (d + 1))
    rw [memRead_of_call hcall, State.memRead_push16_of_ne_mod, ← Nat.add_assoc, (hrun (k + d)).2 x (by omega),
      ih (by omega)]
    · omega
    · omega

/-- Call `n` leaves the two bytes of its return address at the SP that `n` calls make. -/
theorem memRead_call_cells (n : Nat) :
    ((t n).memRead (((s 0).sp.toNat + 254 * n) % 256)).toNat = ((s n).pc + 3) % 65536 % 256 ∧
    ((t n).memRead (((s 0).sp.toNat + 254 * n + 255) % 256)).toNat = ((s n).pc + 3) % 65536 / 256 := by
  have hsp := toNat_sp_of_calls hcall hrun n
  have hhi : ((s 0).sp.toNat + 254 * n + 255) % 256 = ((s n).sp.toNat + 255) % 256 := by omega
  rw [← hsp, hhi, memRead_of_call hcall, memRead_of_call hcall]
  exact ⟨State.toNat_memRead_push16_low _ _, State.toNat_memRead_push16_high _ _⟩

end

/-- Settles O52: call `k` writes the pair of cells `2 k` below the first SP, the calls up to the 128th leave it
alone, and the 129th finds SP where the first did. -/
theorem nestedCallsFillTheStackPage : Obligations.NestedCallsFillTheStackPage := by
  intro s t addr hcall hrun
  have hcells := memRead_call_cells hcall hrun
  refine ⟨toNat_sp_of_calls hcall hrun, fun k hk => ?_, fun x hx => ?_, ?_⟩
  · have h127 : t (k + (127 - k)) = t 127 := congrArg t (by omega)
    have hd : 127 - k < 128 := by omega
    rw [← h127, memRead_of_later_calls hcall hrun hd (.inl rfl), memRead_of_later_calls hcall hrun hd (.inr rfl)]
    exact hcells k
  · exact ⟨((s 0).sp.toNat + 256 - x) % 256 / 2, by omega, by omega⟩
  · have hlo : ((s 0).sp.toNat + 254 * 128) % 256 = (s 0).sp.toNat := by omega
    have hhi : ((s 0).sp.toNat + 254 * 128 + 255) % 256 = ((s 0).sp.toNat + 255) % 256 := by omega
    have h128 := hcells 128
    rwa [hlo, hhi] at h128

end Sys2Proof.Machine

/-! The statements about the two ends of memory: operands that reach beyond it (30_encoding.md R64), transfers beyond
it (43_control.md R115) and the slide through empty memory (40_step_and_nop.md R82). -/

namespace Sys2Proof.Machine

/-! ## Operands beyond memory (R64) -/

theorem State.imm8_of_last {s : State} (h : s.pc + 1 = s.cfg.memLen) : s.imm8 = 0 :=
  s.memRead_of_memLen_le h.ge

theorem State.addr16_of_last {s : State} (h : s.pc + 1 = s.cfg.memLen) : s.addr16 (s.pc + 1) = 0 := by
  have hlo : s.memRead (s.pc + 1) = 0 := s.memRead_of_memLen_le h.ge
  have hhi : s.memRead (s.pc + 1 + 1) = 0 := s.memRead_of_memLen_le (by omega)
  rw [State.addr16, hlo, hhi]
  rfl

theorem State.imm8_of_last_but_one {s : State} (h : s.pc + 2 = s.cfg.memLen) :
    s.imm8 = s.memRead (s.cfg.memLen - 1) :=
  congrArg s.memRead (by omega)

theorem State.addr16_of_last_but_one {s : State} (h : s.pc + 2 = s.cfg.memLen) :
    s.addr16 (s.pc + 1) = (s.memRead (s.cfg.memLen - 1)).setWidth 16 := by
  have hlo : s.pc + 1 = s.cfg.memLen - 1 := by omega
  have hhi : (s.memRead (s.pc + 1 + 1)).toNat = 0 := congrArg BitVec.toNat (s.memRead_of_memLen_le h.ge)
  apply BitVec.eq_of_toNat_eq
  rw [State.toNat_addr16, hhi, hlo, Nat.zero_mul, Nat.zero_add, BitVec.toNat_setWidth_of_le (by decide)]

/-- LDA_IMM (R90). -/
theorem exec_ldaImm (imm : Byte) (s : State) : exec (.ldaImm imm) s = .next { s with a := imm, pc := s.pc + 2 } := rfl

/-- Settles O49: the operand that the step executes with, at each of the two positions. -/
theorem operandsBeyondMemoryReadZero : Obligations.OperandsBeyondMemoryReadZero := by
  refine fun s => ⟨fun h => ⟨State.imm8_of_last h, State.addr16_of_last h⟩, fun h => ?_,
    fun hr hm => ⟨fun k hk => ⟨fun h => ?_, fun h => ?_⟩, fun h hk => ?_⟩, rfl⟩
  · rw [State.addr16_of_last_but_one h, BitVec.toNat_setWidth]
    omega
  · rw [step_of_byteOf ⟨hr, by omega⟩ hm hk, State.imm8_of_last h, State.addr16_of_last h]
    rfl
  · rw [step_of_byteOf ⟨hr, by omega⟩ hm hk, State.imm8_of_last_but_one h, State.addr16_of_last_but_one h]
    rfl
  · rw [step_of_byteOf (k := .ldaImm) ⟨hr, by omega⟩ hm hk, State.imm8_of_last h, ← h]
    exact exec_ldaImm 0 s.countStep

/-! ## Transfers beyond memory (R115) -/

/-- JMP, CALL, a taken JZ and a taken JNZ end in a transfer to their operand; what CALL does before it, the push,
leaves the configuration and running alone. -/
theorem exists_exec_eq_jump {i : Instr} {s : State} {addr : Addr16}
    (hi : i = .jmp addr ∨ i = .call addr ∨ (i = .jz addr ∧ s.zf = true) ∨ (i = .jnz addr ∧ s.zf = false)) :
    ∃ u : State, exec i s = .next (u.jump addr) ∧ u.cfg = s.cfg ∧ u.running = s.running := by
  rcases hi with rfl | rfl | ⟨rfl, hz⟩ | ⟨rfl, hz⟩
  · exact ⟨s, exec_jmp addr s, rfl, rfl⟩
  · exact ⟨s.push16 (s.pc + 3), exec_call addr s, s.push16_cfg _, s.push16_running _⟩
  · exact ⟨s, (exec_jz addr s).trans (congrArg _ (s.branch_taken addr hz)), rfl, rfl⟩
  · exact ⟨s, (exec_jnz addr s).trans (congrArg _ (s.branch_taken addr (congrArg not hz))), rfl, rfl⟩

/-- Settles O53: the step ends in the transfer, and the step after that is the out-of-bounds stop. -/
theorem transferBeyondMemoryStopsTheNextStep : Obligations.TransferBeyondMemoryStopsTheNextStep := by
  rintro s addr ⟨hr, hp⟩ hlen hi
  obtain ⟨u, hexec, hcfg, hrun⟩ := exists_exec_eq_jump (s := s.countStep) hi
  have hur : u.running = true := hrun.trans hr
  have hulen : u.cfg.memLen ≤ addr.toNat := by rwa [hcfg]
  exact ⟨_, (step_of_fetches hr hp).trans hexec, rfl, hur, step_jump_of_memLen_le hur hulen⟩

/-! ## The slide through empty memory (R82) -/

/-- A run begins with a step. -/
theorem run_succ_of_step {s t : State} (h : step s = .next t) (k : Nat) :
    Sys2Proof.core.run (k + 1) s = Sys2Proof.core.run k t := by
  have hcore : Sys2Proof.core.step s = .next t := h
  simp only [Host.Core.run, hcore]

/-- A run that continues a run. -/
theorem run_add {n : Nat} {s t : State} (h : Sys2Proof.core.run n s = .next t) (k : Nat) :
    Sys2Proof.core.run (n + k) s = Sys2Proof.core.run k t := by
  induction n generalizing s with
  | zero => cases h; rw [Nat.zero_add]
  | succ n ih =>
    obtain ⟨u, hu⟩ := exists_step_eq_next s
    rw [Nat.add_right_comm, run_succ_of_step hu, ih ((run_succ_of_step hu n).symm.trans h)]

/-- The engine after `n` NOPs from construction. -/
def slid (cfg : Config) (n : Nat) : State := { State.constructed cfg with pc := n, steps := n }

/-- Empty memory reads as 0, so where NOP is 0 each step in range executes NOP. -/
theorem step_slid {cfg : Config} (hm : cfg.opcodes.Injective) (hnop : cfg.opcodes.nop = 0) {n : Nat}
    (hn : n < cfg.memLen) : step (slid cfg n) = .next (slid cfg (n + 1)) :=
  step_of_nop_or_unassigned (s := slid cfg n) ⟨rfl, hn⟩ hm (.inl ((memRead_constructed cfg n).trans hnop.symm))

theorem run_slid {cfg : Config} (hm : cfg.opcodes.Injective) (hnop : cfg.opcodes.nop = 0) {n : Nat}
    (hn : n ≤ cfg.memLen) : Sys2Proof.core.run n (State.constructed cfg) = .next (slid cfg n) := by
  induction n with
  | zero => rfl
  | succ n ih => exact (run_add (ih (by omega)) 1).trans (run_succ_of_step (step_slid hm hnop hn) 0)

/-- Settles O58, by induction on the number of NOPs; the step after the last one is the out-of-bounds stop. -/
theorem emptyMemorySlidesToTheEnd : Obligations.EmptyMemorySlidesToTheEnd := by
  rintro cfg s hm hnop rfl
  refine ⟨fun n hn => run_slid hm hnop hn, ?_⟩
  exact (run_add (run_slid hm hnop le_rfl) 1).trans
    (run_succ_of_step (step_of_memLen_le (s := slid cfg cfg.memLen) rfl le_rfl) 0)

end Sys2Proof.Machine

/-! The statements about load_program and about the cells of the display and the score (20_memory.md section 2 and
R52). -/

namespace Sys2Proof.Machine

/-- A run of writes leaves every address outside it as it was. -/
theorem State.memRead_writeBytes_of_outside {s : State} {start x : Nat} {bytes : List Byte}
    (hx : x < start ∨ start + bytes.length ≤ x) : (s.writeBytes start bytes).memRead x = s.memRead x := by
  induction bytes generalizing s start with
  | nil => rfl
  | cons v rest ih =>
    rw [List.length_cons] at hx
    rw [State.writeBytes, ih (by omega), State.memRead_memWrite, if_neg (by omega)]

/-- A run of writes puts each byte at its own address in range. -/
theorem State.memRead_writeBytes_getElem {s : State} {start k : Nat} {bytes : List Byte} (hk : k < bytes.length)
    (hlt : start + k < s.cfg.memLen) : (s.writeBytes start bytes).memRead (start + k) = bytes[k] := by
  induction bytes generalizing s start k with
  | nil => exact absurd hk (Nat.not_lt_zero k)
  | cons v rest ih =>
    cases k with
    | zero =>
      rw [State.writeBytes, State.memRead_writeBytes_of_outside (.inl (by omega)), State.memRead_memWrite,
        if_pos ⟨rfl, hlt⟩]
      rfl
    | succ k =>
      rw [List.length_cons] at hk
      have h := ih (s := s.memWrite start v) (start := start + 1) (k := k) (by omega)
        (by rw [State.memWrite_cfg]; omega)
      rwa [Nat.add_right_comm, Nat.add_assoc] at h

/-- Settles O55: load_program is the run of writes. -/
theorem loadProgramCopiesWhatFits : Obligations.LoadProgramCopiesWhatFits :=
  fun s bytes start => ⟨s.loadProgram bytes start, rfl, s.loadProgram_eq bytes start,
    fun _ hk hlt => State.memRead_writeBytes_getElem hk hlt, fun _ => State.memRead_writeBytes_of_outside⟩

/-- The framebuffer lies inside memory (R34). -/
theorem lt_memLen_of_framebuffer {cfg : Config} {addr : Nat} (h : regionOf cfg addr = .framebuffer) :
    addr < cfg.memLen := by
  by_contra hge
  have hlen : cfg.vramStart + cfg.fbWidth * cfg.fbHeight ≤ cfg.memLen := Nat.le_add_right _ _
  rw [regionOf, if_neg (by omega), if_neg (by omega), if_neg hge] at h
  exact Region.noConfusion h

/-- Settles O56: in a legal configuration these addresses are in range and fit in 16 bits, so poke and STA_ABS write
there. -/
theorem displayAndScoreCellsArePlainMemory : Obligations.DisplayAndScoreCellsArePlainMemory := by
  intro s addr v hcfg haddr
  obtain ⟨-, -, hlen, -, hscore, hhigh, -⟩ := hcfg
  have hlt : addr < s.cfg.memLen := by
    rcases haddr with rfl | rfl | hfb
    · exact hscore
    · exact hhigh
    · exact lt_memLen_of_framebuffer hfb
  have h16 : (BitVec.ofNat 16 addr).toNat = addr := by rw [BitVec.toNat_ofNat]; omega
  refine ⟨?_, rfl, fun x hx => ?_, s.storeA addr 3, ?_, State.memRead_storeA_same 3 hlt,
    fun x => s.memRead_storeA_of_ne 3, s.storeA_eq addr 3⟩
  · rw [State.peek_poke, if_pos ⟨rfl, hlt⟩]
  · rw [State.peek_poke, if_neg fun h => hx h.1]
  · rw [exec_staAbs, h16]

end Sys2Proof.Machine
